-- ==== Sys2Proof/Word.lean ====
section
/-! DEFINITION. The words the ports of the FloatCodec core carry (10_state.md R22 to R25).
A port value is an unsigned integer: bit `i` has weight `2^i` (00_scope.md R9, 20_memory.md R41), so there is no byte
order anywhere in the model. -/

namespace Sys2Proof

/-- A 64-bit value of the operand port `a` or the result port `y` (R23, R24). -/
abbrev Word := BitVec 64

/-- An 8-bit command word, the value of the port `op` (R22, R60). -/
abbrev CmdWord := BitVec 8

end Sys2Proof
end

