-- ==== Sys2Proof/Config.lean ====
section
/-! DEFINITION. What is fixed for the machine: the three formats and their parameters (00_scope.md R5 to R7), the open
parameters `T_PROP` and `N_INST` (R8, 92_eei_decisions.md D14 and D18), and the free values an output shows before it has
settled (70_reset_and_hazards.md R182). -/

namespace Sys2Proof

/-- The three formats of R5: half (binary16), single (binary32), double (binary64). -/
inductive Fmt where
  | h
  | s
  | d
deriving DecidableEq, Repr

/-- `W(f)`, the total width of a BitPattern (R5). -/
def Fmt.width : Fmt → Nat
  | .h => 16
  | .s => 32
  | .d => 64

/-- `EB(f)`, the width of the exponent field (R5). -/
def Fmt.expBits : Fmt → Nat
  | .h => 5
  | .s => 8
  | .d => 11

/-- `BIAS(f)` (R5). -/
def Fmt.bias : Fmt → Nat
  | .h => 15
  | .s => 127
  | .d => 1023

/-- `FB(f)`, the width of the fraction field (R5). -/
def Fmt.fracBits : Fmt → Nat
  | .h => 10
  | .s => 23
  | .d => 52

/-- `EMAX_FIELD(f) = 2^EB - 1`, the all-ones exponent field (R6). -/
def Fmt.emaxField (f : Fmt) : Nat := 2 ^ f.expBits - 1

/-- `QBIT(f) = 2^(FB-1)`, the fraction's most significant bit (R6). -/
def Fmt.qbit (f : Fmt) : Nat := 2 ^ (f.fracBits - 1)

/-- The exponent of the smallest subnormal `2^(1 - BIAS - FB)` (R6). -/
def Fmt.minSubnormalExp (f : Fmt) : Int := 1 - (f.bias : Int) - f.fracBits

/-- The exponent of the smallest normal `2^(1 - BIAS)` (R6). -/
def Fmt.minNormalExp (f : Fmt) : Int := 1 - (f.bias : Int)

/-- The native format `N(f)` (R7): `N(H) = S`, `N(S) = S`, `N(D) = D`. -/
def Fmt.native : Fmt → Fmt
  | .h => .s
  | .s => .s
  | .d => .d

/-- OPEN (D14): one less than `T_PROP`, so that `T_PROP > 0` whatever this constant is. Nothing can evaluate it. -/
opaque Config.tPropPred : Nat

/-- `T_PROP` (R8, R182, D14): how long the inputs must have been stable before the outputs are settled, in the model's unit
of time. DESIGN CHOICE (log 5): time is counted in whole units of an unnamed size. -/
def Config.tProp : Nat := Config.tPropPred + 1

/-- OPEN (D18): one less than `N_INST`, so that `N_INST ≥ 1` whatever this constant is. -/
opaque Config.nInstPred : Nat

/-- `N_INST` (R8, R168, D18): how many instances of the block the system contains. -/
def Config.nInst : Nat := Config.nInstPred + 1

/-- FREE VALUE (R182, log 3): what the bus `y` shows at the `n`-th sample taken before the outputs have settled. -/
opaque Config.earlyY : Nat → Word

/-- FREE VALUE (R182, log 3): what `ill` shows at the `n`-th sample taken before the outputs have settled. -/
opaque Config.earlyIll : Nat → Bool

end Sys2Proof
end

