-- ==== Sys2Proof/Syntax.lean ====
section
/-! DEFINITION. The commands of the block: one constructor for each row of opcode_table.json (30_encoding.md R63), and the
three fields a command word is made of (R60 to R62). A command word carries no operand: the operand is the port `a` (R64). -/

namespace Sys2Proof

/-- The 18 legal commands, in the order of R63. -/
inductive Instr where
  | decH
  | decS
  | decD
  | encH
  | encS
  | encD
  | xsgnH
  | xsgnS
  | xsgnD
  | xexpH
  | xexpS
  | xexpD
  | xfrcH
  | xfrcS
  | xfrcD
  | classH
  | classS
  | classD
deriving DecidableEq, Repr

/-- The six functions the `func` field selects (R62). -/
inductive Func where
  | dec
  | enc
  | xsgn
  | xexp
  | xfrc
  | cls
deriving DecidableEq, Repr

/-- The three fields of a command word (R60): `op[7:5]`, `op[4:2]`, `op[1:0]`. Plain data: R67 says which are legal, and
WellFormed.lean checks it. -/
structure CmdFields where
  rsv : BitVec 3
  func : BitVec 3
  fmt : BitVec 2
deriving DecidableEq, Repr

/-- The function a command stands for (R62, R63). -/
def Instr.func : Instr → Func
  | .decH => .dec
  | .decS => .dec
  | .decD => .dec
  | .encH => .enc
  | .encS => .enc
  | .encD => .enc
  | .xsgnH => .xsgn
  | .xsgnS => .xsgn
  | .xsgnD => .xsgn
  | .xexpH => .xexp
  | .xexpS => .xexp
  | .xexpD => .xexp
  | .xfrcH => .xfrc
  | .xfrcS => .xfrc
  | .xfrcD => .xfrc
  | .classH => .cls
  | .classS => .cls
  | .classD => .cls

/-- The format a command works on (R61, R63). -/
def Instr.fmt : Instr → Fmt
  | .decH => .h
  | .decS => .s
  | .decD => .d
  | .encH => .h
  | .encS => .s
  | .encD => .d
  | .xsgnH => .h
  | .xsgnS => .s
  | .xsgnD => .d
  | .xexpH => .h
  | .xexpS => .s
  | .xexpD => .d
  | .xfrcH => .h
  | .xfrcS => .s
  | .xfrcD => .d
  | .classH => .h
  | .classS => .s
  | .classD => .d

/-- The command of a function and a format: every pair is one of the 18 (R63). -/
def Instr.of : Func → Fmt → Instr
  | .dec, .h => .decH
  | .dec, .s => .decS
  | .dec, .d => .decD
  | .enc, .h => .encH
  | .enc, .s => .encS
  | .enc, .d => .encD
  | .xsgn, .h => .xsgnH
  | .xsgn, .s => .xsgnS
  | .xsgn, .d => .xsgnD
  | .xexp, .h => .xexpH
  | .xexp, .s => .xexpS
  | .xexp, .d => .xexpD
  | .xfrc, .h => .xfrcH
  | .xfrc, .s => .xfrcS
  | .xfrc, .d => .xfrcD
  | .cls, .h => .classH
  | .cls, .s => .classS
  | .cls, .d => .classD

end Sys2Proof
end

