-- ==== Sys2Proof/WellFormed.lean ====
section
/-! DEFINITION. Which command words are legal (30_encoding.md R60 to R63, R67), as a check on the three fields of the word.
The commands themselves have no operands, so what can be ill-formed is a word's fields; the check of a command is the check of
the fields of its word (Decode.lean, `Instr.wellFormed`). -/

namespace Sys2Proof

/-- `op[7:5]` must be `000` (R60, R67). -/
def CmdFields.rsvOk (c : CmdFields) : Bool := c.rsv == 0b000#3

/-- `func` must not be `110` or `111` (R62, R67). -/
def CmdFields.funcOk (c : CmdFields) : Bool := c.func != 0b110#3 && c.func != 0b111#3

/-- `fmt` must not be `11` (R61, R67). -/
def CmdFields.fmtOk (c : CmdFields) : Bool := c.fmt != 0b11#2

/-- The fields are those of one of the 18 legal words (R63). -/
def CmdFields.wellFormed (c : CmdFields) : Bool := c.rsvOk && c.funcOk && c.fmtOk

end Sys2Proof
end

