-- ==== Sys2Proof/Decode.lean ====
section
/-! DEFINITION. Decoding and encoding of the command word (30_encoding.md R60 to R63, R67, R69). Decoding reads `op` alone,
is total on the 256 words, and rejects each reserved word by the name of the field that makes it reserved. -/

namespace Sys2Proof

/-- Why a word is reserved (R67). Where several fields are at fault the first in the order of R67 is named. -/
inductive DecodeError where
  /-- `op[7:5] ≠ 000`: 0x20 to 0xFF. -/
  | reservedBits
  /-- `op[7:5] = 000` and `fmt = 11`. -/
  | reservedFormat
  /-- `op[7:5] = 000` and `func` is `110` or `111`. -/
  | reservedFunction
deriving DecidableEq, Repr

/-- The code of a function in `op[4:2]` (R62). -/
def Func.code : Func → BitVec 3
  | .dec => 0b000#3
  | .enc => 0b001#3
  | .xsgn => 0b010#3
  | .xexp => 0b011#3
  | .xfrc => 0b100#3
  | .cls => 0b101#3

/-- The code of a format in `op[1:0]` (R61). -/
def Fmt.code : Fmt → BitVec 2
  | .h => 0b00#2
  | .s => 0b01#2
  | .d => 0b10#2

/-- The three fields of a command word (R60). -/
def splitWord (op : CmdWord) : CmdFields :=
  { rsv := op.extractLsb' 5 3, func := op.extractLsb' 2 3, fmt := op.extractLsb' 0 2 }

/-- A command word put together from its three fields (R60). -/
def packWord (c : CmdFields) : CmdWord := c.rsv ++ c.func ++ c.fmt

/-- The function a `func` field selects; `110` and `111` select none (R62). -/
def funcOfCode (c : BitVec 3) : Option Func :=
  match c.toNat with
  | 0 => some .dec
  | 1 => some .enc
  | 2 => some .xsgn
  | 3 => some .xexp
  | 4 => some .xfrc
  | 5 => some .cls
  | _ => none

/-- The format a `fmt` field selects; `11` selects none (R61). -/
def fmtOfCode (c : BitVec 2) : Option Fmt :=
  match c.toNat with
  | 0 => some .h
  | 1 => some .s
  | 2 => some .d
  | _ => none

/-- The command of a word, or the reason the word is reserved (R63, R67, R69). -/
def decode (op : CmdWord) : Except DecodeError Instr :=
  if (splitWord op).rsvOk then
    match fmtOfCode (splitWord op).fmt, funcOfCode (splitWord op).func with
    | none, _ => .error .reservedFormat
    | some _, none => .error .reservedFunction
    | some f, some g => .ok (Instr.of g f)
  else .error .reservedBits

/-- The fields of a command's word (R60 to R63). -/
def Instr.fields (i : Instr) : CmdFields := { rsv := 0b000#3, func := i.func.code, fmt := i.fmt.code }

/-- A command is well-formed when the fields of its word are legal. -/
def Instr.wellFormed (i : Instr) : Bool := i.fields.wellFormed

/-- The word of a command: `{000, func, fmt}` (R63). -/
def encode (i : Instr) : CmdWord := packWord i.fields

/-- One row of the opcode table: a word `op` is this command when `op AND mask = bits` (opcode_table.json). -/
structure OpcodeRow where
  bits : CmdWord
  mask : CmdWord
  instr : Instr
deriving DecidableEq, Repr

/-- The table of R63 as opcode_table.json gives it, row by row, written out apart from the field codes above. -/
def opcodeTable : List OpcodeRow :=
  [⟨0x00#8, 0xFF#8, .decH⟩, ⟨0x01#8, 0xFF#8, .decS⟩, ⟨0x02#8, 0xFF#8, .decD⟩,
   ⟨0x04#8, 0xFF#8, .encH⟩, ⟨0x05#8, 0xFF#8, .encS⟩, ⟨0x06#8, 0xFF#8, .encD⟩,
   ⟨0x08#8, 0xFF#8, .xsgnH⟩, ⟨0x09#8, 0xFF#8, .xsgnS⟩, ⟨0x0A#8, 0xFF#8, .xsgnD⟩,
   ⟨0x0C#8, 0xFF#8, .xexpH⟩, ⟨0x0D#8, 0xFF#8, .xexpS⟩, ⟨0x0E#8, 0xFF#8, .xexpD⟩,
   ⟨0x10#8, 0xFF#8, .xfrcH⟩, ⟨0x11#8, 0xFF#8, .xfrcS⟩, ⟨0x12#8, 0xFF#8, .xfrcD⟩,
   ⟨0x14#8, 0xFF#8, .classH⟩, ⟨0x15#8, 0xFF#8, .classS⟩, ⟨0x16#8, 0xFF#8, .classD⟩]

/-- What the decoder reads from an instruction of `nbits` bits whose bits are `w`, numbered as the opcode table numbers them.
Every instruction of this block is one word of 8 bits (R60), so any other length, or a number above it, is no instruction. -/
def decodeTableWord (nbits w : Nat) : Option Instr :=
  if nbits = 8 ∧ w < 256 then (decode (BitVec.ofNat 8 w)).toOption else none

end Sys2Proof
end

