-- ==== Sys2Proof/Machine/State.lean ====
section
/-! DEFINITION. The state of the model: the four ports of the block (10_state.md R20 to R32). The block itself holds no
state, no register, no memory and no program counter; what a transaction reads is what the host drives on `op` and `a`, and what
it answers stands on `y` and `ill`. -/

namespace Sys2Proof.Machine

/-- The ports of one FloatCodec instance, as a settled transaction finds and leaves them (R22 to R25, R45). -/
structure State where
  /-- Input port `op[7:0]`: the command word the host drives (R22). -/
  op : CmdWord
  /-- Input port `a[63:0]`: the operand the host drives (R23). -/
  a : Word
  /-- Output port `y[63:0]`: the result of the last settled transaction (R24). -/
  y : Word
  /-- Output port `ill`: set when that transaction's word was reserved (R25). -/
  ill : Bool
deriving DecidableEq, Repr

/-- Faults of the machine. There are none: no legal command raises an exception for any operand, and a reserved word only
drives `ill` (60_exceptions.md R160, R161). Nothing raises a fault, so the type has no constructor (safe: nothing is stopped). -/
inductive Fault where
deriving DecidableEq, Repr

/-- Refusals of the machine. -/
inductive Refusal where
  /-- An instruction whose arm in `exec` has no meaning yet. No arm uses it: all 18 commands have their meaning (safe). -/
  | notModelled (mnemonic : String)
deriving DecidableEq, Repr

/-- The machine at power-up. The block has no reset and no register with a reset value (70_reset_and_hazards.md R180).
DESIGN CHOICE (log 1): the host-driven inputs `op` and `a`, for which the spec gives no value, are 0; the outputs are then the
settled outputs for those inputs, as R180 requires at all times. -/
def State.reset : State := { op := 0x00#8, a := 0#64, y := 0#64, ill := false }

end Sys2Proof.Machine
end

