-- ==== Sys2Proof/Machine/Operands.lean ====
section
/-! DEFINITION. Operands: bit slices (00_scope.md R9), the operand a command takes from the port `a` (30_encoding.md R64), the
widths of operands and results (R64, R65), and the three fields of a BitPattern (R66, 40_fields.md R80). A BitPattern is an
unsigned integer below `2^W(f)`, as R9 has it. -/

namespace Sys2Proof.Machine

/-- `x[hi:lo] = floor(x / 2^lo) mod 2^(hi-lo+1)` (R9). -/
def slice (x hi lo : Nat) : Nat := x / 2 ^ lo % 2 ^ (hi - lo + 1)

/-- The BitPattern operand `p = a[W(f)-1:0]` (R64); the bits of `a` above it are ignored (R23). -/
def patternOperand (f : Fmt) (a : Word) : Nat := slice a.toNat (f.width - 1) 0

/-- The native-value operand `x = a[W(N(f))-1:0]` of ENC (R64, 43_encode.md R130). -/
def nativeOperand (f : Fmt) (a : Word) : Nat := patternOperand f.native a

/-- The sign, the biased exponent and the fraction of a BitPattern (R66). -/
structure Fields where
  sign : Bool
  exp : Nat
  frac : Nat
deriving DecidableEq, Repr

/-- `Fields(f, p)` (R80): `s = p[W-1]`, `E = p[W-2:FB]`, `F = p[FB-1:0]`. -/
def fieldsOf (f : Fmt) (p : Nat) : Fields :=
  { sign := slice p (f.width - 1) (f.width - 1) == 1
    exp := slice p (f.width - 2) f.fracBits
    frac := slice p (f.fracBits - 1) 0 }

/-- `{s, E, F}`: the BitPattern with these fields, the sign highest (R66). -/
def packFields (f : Fmt) (x : Fields) : Nat :=
  x.sign.toNat * 2 ^ (f.width - 1) + x.exp * 2 ^ f.fracBits + x.frac

/-- How many low bits of `a` a command reads (R64). -/
def operandWidth (i : Instr) : Nat :=
  match i.func with
  | .enc => i.fmt.native.width
  | _ => i.fmt.width

/-- How many low bits of `y` a command's result has (R65). -/
def resultWidth (i : Instr) : Nat :=
  match i.func with
  | .dec => i.fmt.native.width
  | .enc => i.fmt.width
  | .xsgn => 1
  | .xexp => i.fmt.expBits
  | .xfrc => i.fmt.fracBits
  | .cls => 3

end Sys2Proof.Machine
end

