-- ==== Sys2Proof/Machine/Flags.lean ====
section
/-! DEFINITION. The one status output, `ill` (10_state.md R25, R29): when a word is reserved, and the driving of the flag. The
block has no other flag: no inexact, overflow, underflow or invalid flag exists (60_exceptions.md R162), so nothing is computed
for them. -/

namespace Sys2Proof.Machine

/-- `op` is one of the 238 reserved words, by the three ranges of 30_encoding.md R67. -/
def isReserved (op : CmdWord) : Bool :=
  decide (0x20 ≤ op.toNat) || decide (slice op.toNat 1 0 = 3) || decide (0x18 ≤ op.toNat ∧ op.toNat ≤ 0x1F)

/-- `ill <- b` (00_scope.md R12). The flag is driven afresh by every transaction and is not sticky (R29). -/
def driveIll (b : Bool) (s : State) : State := { s with ill := b }

end Sys2Proof.Machine
end

