-- ==== Sys2Proof/Machine/Ops.lean ====
section
/-! DEFINITION. The operations the commands share: the abstract values (00_scope.md R11), decoding a BitPattern to its value
(42_decode.md R110), rounding half to even (R13), packing a value into a format (43_encode.md R131 to R139), the five classes
(41_classify.md R100, R101), and driving the outputs (R12, 30_encoding.md R65, R67).

Taking an exception: the block has none, no trap entry and no return from one (60_exceptions.md R160, R165, R166). Its one error
indication is the answer to a reserved word, `answerReserved`. -/

namespace Sys2Proof.Machine

/-! ### Values -/

/-- A value the codec moves (R11). `fin s M E` is `(-1)^s * M * 2^E`; a NaN carries only a sign. -/
inductive Value where
  | zero (s : Bool)
  | fin (s : Bool) (M : Nat) (E : Int)
  | inf (s : Bool)
  | nan (s : Bool)
deriving DecidableEq, Repr

/-- `Fin` holds a nonzero magnitude: `M > 0` (R11). -/
def Value.wellFormed : Value → Bool
  | .fin _ M _ => decide (0 < M)
  | .zero _ => true
  | .inf _ => true
  | .nan _ => true

/-- `Decode(f, p)` (R110, R111): the value a BitPattern stands for. -/
def decodeValue (f : Fmt) (p : Nat) : Value :=
  if (fieldsOf f p).exp = f.emaxField then
    if (fieldsOf f p).frac = 0 then .inf (fieldsOf f p).sign else .nan (fieldsOf f p).sign
  else if (fieldsOf f p).exp = 0 then
    if (fieldsOf f p).frac = 0 then .zero (fieldsOf f p).sign
    else .fin (fieldsOf f p).sign (fieldsOf f p).frac f.minSubnormalExp
  else
    .fin (fieldsOf f p).sign (2 ^ f.fracBits + (fieldsOf f p).frac)
      ((fieldsOf f p).exp - (f.bias : Int) - f.fracBits)

/-! ### Rounding and packing -/

/-- `RNE(num / den)` (R13): round half to even of the non-negative rational `num / den`, for `den > 0`. With
`n = floor(num / den)` and remainder `r / den`, the remainder is compared with one half as `2 * r` with `den`. -/
def rne (num den : Nat) : Nat :=
  if 2 * (num % den) < den then num / den
  else if den < 2 * (num % den) then num / den + 1
  else if num / den % 2 = 0 then num / den else num / den + 1

/-- `SGN = s * 2^(W(f)-1)` (R139). -/
def signPattern (f : Fmt) (s : Bool) : Nat := s.toNat * 2 ^ (f.width - 1)

/-- `{s, EMAX_FIELD(f), 0}`: infinity (R132). -/
def infPattern (f : Fmt) (s : Bool) : Nat := signPattern f s + f.emaxField * 2 ^ f.fracBits

/-- `{s, EMAX_FIELD(f), QBIT(f)}`: the canonical NaN (R131). -/
def nanPattern (f : Fmt) (s : Bool) : Nat := signPattern f s + f.emaxField * 2 ^ f.fracBits + f.qbit

/-- The unbiased exponent `e` of `M * 2^E`, `M > 0`: the integer with `2^e <= M * 2^E < 2^(e+1)` (R134). -/
def unbiasedExp (M : Nat) (E : Int) : Int := (Nat.log2 M : Int) + E

/-- `q = RNE(m * 2^FB / 2^shift)` for the normalized mantissa `m = M / 2^(log2 M)` (R137). -/
def subnormalFraction (f : Fmt) (M shift : Nat) : Nat := rne (M * 2 ^ f.fracBits) (2 ^ (Nat.log2 M + shift))

/-- `q = RNE((m - 1) * 2^FB)` for the normalized mantissa `m = M / 2^(log2 M)` (R138). -/
def normalFraction (f : Fmt) (M : Nat) : Nat := rne ((M - 2 ^ Nat.log2 M) * 2 ^ f.fracBits) (2 ^ Nat.log2 M)

/-- `RoundPack(f, Fin(s, v))` for a biased exponent `e + BIAS <= 0`: flush to signed zero (R136), or a subnormal (R137). -/
def packSubnormal (f : Fmt) (s : Bool) (M shift : Nat) : Nat :=
  if f.fracBits < shift then signPattern f s else signPattern f s + subnormalFraction f M shift

/-- `RoundPack(f, Fin(s, v))` for a biased exponent `0 < e + BIAS < EMAX_FIELD` (R138), the carry into infinity included. -/
def packNormal (f : Fmt) (s : Bool) (M biased : Nat) : Nat :=
  if f.emaxField * 2 ^ f.fracBits ≤ biased * 2 ^ f.fracBits + normalFraction f M then infPattern f s
  else signPattern f s + (biased * 2 ^ f.fracBits + normalFraction f M)

/-- `RoundPack(f, Fin(s, M * 2^E))` (R134 to R138): overflow is decided on `e` before rounding (R135). -/
def packFinite (f : Fmt) (s : Bool) (M : Nat) (E : Int) : Nat :=
  if (f.emaxField : Int) ≤ unbiasedExp M E + f.bias then infPattern f s
  else if unbiasedExp M E + f.bias ≤ 0 then packSubnormal f s M (1 - (unbiasedExp M E + f.bias)).toNat
  else packNormal f s M (unbiasedExp M E + f.bias).toNat

/-- `RoundPack(f, X)` (R139): the BitPattern of format `f` that stands for the value. A `Fin` with `M = 0` is no value of R11 and never
reaches it (`decodeValue_wellFormed`); the function is total all the same (log 7). -/
def roundPack (f : Fmt) : Value → Nat
  | .nan s => nanPattern f s
  | .inf s => infPattern f s
  | .zero s => signPattern f s
  | .fin s M E => packFinite f s M E

/-- `DECODE_OUT(f, p) = RoundPack(N(f), Decode(f, p))`: what DEC drives (42_decode.md R114). -/
def decodeOut (f : Fmt) (p : Nat) : Nat := roundPack f.native (decodeValue f p)

/-- `RoundPack(f, Decode(N(f), x))`: what ENC drives (R130). -/
def encodeOut (f : Fmt) (x : Nat) : Nat := roundPack f (decodeValue f.native x)

/-! ### Classes -/

/-- The five classes (R100). -/
inductive NumClass where
  | zero
  | subnormal
  | normal
  | infinity
  | nan
deriving DecidableEq, Repr

/-- The class code driven on `y` (R101). -/
def NumClass.code : NumClass → Nat
  | .zero => 0
  | .subnormal => 1
  | .normal => 2
  | .infinity => 3
  | .nan => 4

/-- `Class(f, p)` (R100). The sign takes no part. -/
def classOf (f : Fmt) (p : Nat) : NumClass :=
  if (fieldsOf f p).exp = f.emaxField then
    if (fieldsOf f p).frac = 0 then .infinity else .nan
  else if (fieldsOf f p).exp = 0 then
    if (fieldsOf f p).frac = 0 then .zero else .subnormal
  else .normal

/-! ### Driving the outputs -/

/-- A legal command's answer: `y <- zext_64(r)` and `ill <- 0` (R65, R67). The inputs stay as the host drives them. -/
def answer (r : Nat) (s : State) : State := driveIll false { s with y := BitVec.ofNat 64 r }

/-- The answer to a reserved word: `y <- 0` and `ill <- 1`, whatever the operand, and no other effect (R67, R161). -/
def answerReserved (s : State) : State := driveIll true { s with y := 0#64 }

end Sys2Proof.Machine
end

