-- ==== Sys2Proof/Machine/Classify.lean ====
section
/-! DEFINITION. The classifier: CLASS (41_classify.md R100 to R104). -/

namespace Sys2Proof.Machine

/-- The class code of the operand, zero-extended (R100, R101). -/
def classify (f : Fmt) (s : State) : State := answer (classOf f (patternOperand f s.a)).code s

/-- `CLASS.H` (R102): classify a binary16 pattern. A NaN is classified, not signalled. -/
def execClassH (s : State) : Host.Outcome State Fault Refusal := .next (classify .h s)

/-- `CLASS.S` (R103): classify a binary32 pattern. A NaN is classified, not signalled. -/
def execClassS (s : State) : Host.Outcome State Fault Refusal := .next (classify .s s)

/-- `CLASS.D` (R104): classify a binary64 pattern. A NaN is classified, not signalled. -/
def execClassD (s : State) : Host.Outcome State Fault Refusal := .next (classify .d s)

end Sys2Proof.Machine
end

