-- ==== Sys2Proof/Machine/Dec.lean ====
section
/-! DEFINITION. The decoder: DEC (42_decode.md R110 to R117). -/

namespace Sys2Proof.Machine

/-- Decode the pattern on `a` and drive its native value (R114). -/
def decodeCommand (f : Fmt) (s : State) : State := answer (decodeOut f (patternOperand f s.a)) s

/-- `DEC.H` (R115): decode a binary16 pattern to a binary32 value. -/
def execDecH (s : State) : Host.Outcome State Fault Refusal := .next (decodeCommand .h s)

/-- `DEC.S` (R116): decode a binary32 pattern to a binary32 value. -/
def execDecS (s : State) : Host.Outcome State Fault Refusal := .next (decodeCommand .s s)

/-- `DEC.D` (R117): decode a binary64 pattern to a binary64 value. -/
def execDecD (s : State) : Host.Outcome State Fault Refusal := .next (decodeCommand .d s)

end Sys2Proof.Machine
end

