-- ==== Sys2Proof/Machine/Enc.lean ====
section
/-! DEFINITION. The encoder: ENC (43_encode.md R130 to R143). -/

namespace Sys2Proof.Machine

/-- Read the native value on `a` and drive the pattern of format `f` that stands for it (R130, R139). -/
def encodeCommand (f : Fmt) (s : State) : State := answer (encodeOut f (nativeOperand f s.a)) s

/-- `ENC.H` (R141): encode a binary32 value as a binary16 pattern. -/
def execEncH (s : State) : Host.Outcome State Fault Refusal := .next (encodeCommand .h s)

/-- `ENC.S` (R142): encode a binary32 value as a binary32 pattern. -/
def execEncS (s : State) : Host.Outcome State Fault Refusal := .next (encodeCommand .s s)

/-- `ENC.D` (R143): encode a binary64 value as a binary64 pattern. -/
def execEncD (s : State) : Host.Outcome State Fault Refusal := .next (encodeCommand .d s)

end Sys2Proof.Machine
end

