-- ==== Sys2Proof/Machine/Extract.lean ====
section
/-! DEFINITION. The bit-field extractor: XSGN, XEXP and XFRC (40_fields.md R80 to R89). -/

namespace Sys2Proof.Machine

/-- The sign field of the operand (R80), zero-extended. -/
def extractSign (f : Fmt) (s : State) : State := answer (fieldsOf f (patternOperand f s.a)).sign.toNat s

/-- The biased exponent field of the operand (R80), zero-extended. -/
def extractExp (f : Fmt) (s : State) : State := answer (fieldsOf f (patternOperand f s.a)).exp s

/-- The fraction field of the operand (R80), zero-extended; a NaN's payload is reported as it stands (R87). -/
def extractFrac (f : Fmt) (s : State) : State := answer (fieldsOf f (patternOperand f s.a)).frac s

/-- `XSGN.H` (R81): the sign of a binary16 pattern. -/
def execXsgnH (s : State) : Host.Outcome State Fault Refusal := .next (extractSign .h s)

/-- `XSGN.S` (R82): the sign of a binary32 pattern. -/
def execXsgnS (s : State) : Host.Outcome State Fault Refusal := .next (extractSign .s s)

/-- `XSGN.D` (R83): the sign of a binary64 pattern. -/
def execXsgnD (s : State) : Host.Outcome State Fault Refusal := .next (extractSign .d s)

/-- `XEXP.H` (R84): the biased exponent of a binary16 pattern. -/
def execXexpH (s : State) : Host.Outcome State Fault Refusal := .next (extractExp .h s)

/-- `XEXP.S` (R85): the biased exponent of a binary32 pattern. -/
def execXexpS (s : State) : Host.Outcome State Fault Refusal := .next (extractExp .s s)

/-- `XEXP.D` (R86): the biased exponent of a binary64 pattern. -/
def execXexpD (s : State) : Host.Outcome State Fault Refusal := .next (extractExp .d s)

/-- `XFRC.H` (R87): the fraction of a binary16 pattern. -/
def execXfrcH (s : State) : Host.Outcome State Fault Refusal := .next (extractFrac .h s)

/-- `XFRC.S` (R88): the fraction of a binary32 pattern. -/
def execXfrcS (s : State) : Host.Outcome State Fault Refusal := .next (extractFrac .s s)

/-- `XFRC.D` (R89): the fraction of a binary64 pattern. -/
def execXfrcD (s : State) : Host.Outcome State Fault Refusal := .next (extractFrac .d s)

end Sys2Proof.Machine
end

