-- ==== Sys2Proof/Machine/Dispatch.lean ====
section
/-! DEFINITION. One arm per command, each one call of the command's meaning (30_encoding.md R63, R68). -/

namespace Sys2Proof.Machine

def exec (i : Instr) (s : State) : Host.Outcome State Fault Refusal :=
  match i with
  | .decH => Sys2Proof.Machine.execDecH s
  | .decS => Sys2Proof.Machine.execDecS s
  | .decD => Sys2Proof.Machine.execDecD s
  | .encH => Sys2Proof.Machine.execEncH s
  | .encS => Sys2Proof.Machine.execEncS s
  | .encD => Sys2Proof.Machine.execEncD s
  | .xsgnH => Sys2Proof.Machine.execXsgnH s
  | .xsgnS => Sys2Proof.Machine.execXsgnS s
  | .xsgnD => Sys2Proof.Machine.execXsgnD s
  | .xexpH => Sys2Proof.Machine.execXexpH s
  | .xexpS => Sys2Proof.Machine.execXexpS s
  | .xexpD => Sys2Proof.Machine.execXexpD s
  | .xfrcH => Sys2Proof.Machine.execXfrcH s
  | .xfrcS => Sys2Proof.Machine.execXfrcS s
  | .xfrcD => Sys2Proof.Machine.execXfrcD s
  | .classH => Sys2Proof.Machine.execClassH s
  | .classS => Sys2Proof.Machine.execClassS s
  | .classD => Sys2Proof.Machine.execClassD s

end Sys2Proof.Machine
end

