-- ==== Sys2Proof/Machine/Step.lean ====
section
/-! DEFINITION. One step: one settled transaction on the word the host drives on `op` (10_state.md R21, 20_memory.md R45 and
R49). Nothing is fetched and nothing advances: the block acts on the word present now, and the inputs stay as driven. -/

namespace Sys2Proof.Machine

/-- One transaction: a legal word runs its command; a reserved word is answered with `y = 0`, `ill = 1` (R67, R161). Reserved is
decided from `op` alone, before the operand is looked at (60_exceptions.md R164). -/
def step (s : State) : Host.Outcome State Fault Refusal :=
  match decode s.op with
  | .ok i => exec i s
  | .error _ => .next (answerReserved s)

/-- `s` with the host driving the command word `w` on `op` (log 2): the block has no program, so driving `op` is all that
placing an instruction takes. Every instruction has 8 bits (R60), so `nbits` changes nothing. -/
def State.withFetchWord (s : State) (_nbits w : Nat) : State := { s with op := BitVec.ofNat 8 w }

end Sys2Proof.Machine
end

