-- ==== Sys2Proof/Machine/Ports.lean ====
section
/-! DEFINITION. What the host does with the block (10_state.md R33, R34): it drives the inputs, waits, and samples the outputs,
on any number of instances (60_exceptions.md R168), and a sample taken before the inputs have been stable for `T_PROP` is a free
draw (70_reset_and_hazards.md R182). The block itself has no time: `step` is one settled transaction. -/

namespace Sys2Proof.Machine

/-- What the host reads from the two output ports. -/
structure Sample where
  y : Word
  ill : Bool
deriving DecidableEq, Repr

/-- One transaction from any port values: the host drives `op` and `a`, and the outputs settle (R34, R45). -/
def transact (op : CmdWord) (a : Word) (s : State) : State :=
  match step { s with op := op, a := a } with
  | .next t => t
  | .fault _ => s
  | .refused _ => s

/-- A sequence of transactions on one instance, and what each one answered, in order (R183, 92_eei_decisions.md D20). -/
def transactAll : List (CmdWord × Word) → State → List Sample × State
  | [], s => ([], s)
  | (op, a) :: rest, s =>
    let t := transact op a s
    let later := transactAll rest t
    ({ y := t.y, ill := t.ill } :: later.1, later.2)

/-- One instance as the host sees it: its ports, and for how long its inputs have been stable (R182). -/
structure Port where
  io : State
  heldFor : Nat
deriving DecidableEq, Repr

/-- The instances of the system, which share nothing (R168), and how many free draws early samples have used (log 3). -/
structure System where
  ports : List Port
  draws : Nat
deriving DecidableEq, Repr

/-- What the host can do (R33): drive an instance's inputs, let time pass, sample an instance's outputs. -/
inductive HostAction where
  | drive (k : Nat) (op : CmdWord) (a : Word)
  | wait (dt : Nat)
  | sample (k : Nat)
deriving DecidableEq, Repr

/-- At power-up every one of the `N_INST` instances has inputs that have not been stable for any time (R180, log 1). -/
def System.powerUp : System := { ports := List.replicate Config.nInst { io := State.reset, heldFor := 0 }, draws := 0 }

/-- The host drives `op` and `a`; the stable time starts again when either changes (R182). The output fields of `io` keep the last
settled values; what the ports show until they settle is `earlySample`, never these (log 3). -/
def Port.drive (op : CmdWord) (a : Word) (p : Port) : Port :=
  if p.io.op = op ∧ p.io.a = a then p else { io := { p.io with op := op, a := a }, heldFor := 0 }

/-- Time passes while the inputs are held. -/
def Port.wait (dt : Nat) (p : Port) : Port := { p with heldFor := p.heldFor + dt }

/-- The inputs have been stable for at least `T_PROP` (R182). -/
def Port.settled (p : Port) : Bool := decide (Config.tProp ≤ p.heldFor)

/-- The port once its outputs follow its inputs: `y` and `ill` equal `Step(op, a)` (R33, R182). -/
def Port.settle (p : Port) : Port := { p with io := transact p.io.op p.io.a p.io }

/-- The settled outputs of a port. -/
def Port.outputs (p : Port) : Sample := { y := p.settle.io.y, ill := p.settle.io.ill }

/-- The `n`-th early sample: a free draw, nothing of the inputs (R182, log 3). -/
def earlySample (n : Nat) : Sample := { y := Config.earlyY n, ill := Config.earlyIll n }

/-- The host samples instance `k`: the settled outputs, or a free draw when it samples early (R33, R182). An instance the system
does not have answers nothing (log 6). -/
def System.sample (k : Nat) (x : System) : Option Sample × System :=
  match x.ports[k]? with
  | none => (none, x)
  | some p =>
    if p.settled then (some p.outputs, { x with ports := x.ports.set k p.settle })
    else (some (earlySample x.draws), { x with draws := x.draws + 1 })

/-- One action of the host, and what it reads (R33). -/
def System.act (x : System) : HostAction → Option Sample × System
  | .drive k op a => (none, { x with ports := x.ports.modify k (Port.drive op a) })
  | .wait dt => (none, { x with ports := x.ports.map (Port.wait dt) })
  | .sample k => x.sample k

/-- A sequence of host actions. -/
def System.after (x : System) : List HostAction → System
  | [] => x
  | act :: rest => (x.act act).2.after rest

/-- The action neither drives nor samples instance `k`. -/
def HostAction.leaves (k : Nat) : HostAction → Bool
  | .drive j _ _ => decide (j ≠ k)
  | .wait _ => true
  | .sample j => decide (j ≠ k)

/-- How much time an action takes. -/
def HostAction.duration : HostAction → Nat
  | .drive _ _ _ => 0
  | .wait dt => dt
  | .sample _ => 0

/-- How much time a sequence of actions takes. -/
def totalDuration : List HostAction → Nat
  | [] => 0
  | act :: rest => act.duration + totalDuration rest

end Sys2Proof.Machine
end

