-- ==== Sys2Proof/Machine/Script.lean ====
section
/-! DEFINITION. The host's scripts (30_encoding.md R70, R71; 92_eei_decisions.md D15, D20): the lines of a script, the pair
`(op, a)` a line is encoded as, the pseudo-commands, and the text of a line. Host variables `t0, t1, ...` belong to the host, not to
the block (10_state.md R27). -/

namespace Sys2Proof.Machine

/-- An operand of a line: a literal, or a host variable `tk` (R70). -/
inductive ScriptOperand where
  | lit (n : Nat)
  | var (k : Nat)
deriving DecidableEq, Repr

/-- What a line issues: one of the 18 commands, or a raw word after `.op` (R70). -/
inductive ScriptOp where
  | command (i : Instr)
  | raw (op : CmdWord)
deriving DecidableEq, Repr

/-- A line of a script: an optional host variable that names the result, the command, the operand (R70). -/
structure ScriptLine where
  dest : Option Nat
  op : ScriptOp
  operand : ScriptOperand
deriving DecidableEq, Repr

/-- What an assembler rejects (R70). -/
inductive AsmError where
  /-- A literal wider than 64 bits. -/
  | literalTooWide
  /-- A host variable that no earlier line has named. -/
  | undefinedVariable (k : Nat)
  /-- The text is not a line of the form R70 gives. -/
  | malformed
deriving DecidableEq, Repr

/-- The host variables that have a value, the newest first. -/
abbrev HostVars := List (Nat × Word)

/-- The value of an operand: a literal is zero-extended into `a`, and one wider than 64 bits is an error (R70). DESIGN CHOICE (log 4):
a literal's width is that of its value, so leading zeros do not count: it is too wide when it is `2^64` or more. -/
def ScriptOperand.value (vars : HostVars) : ScriptOperand → Except AsmError Word
  | .lit n => if n < 2 ^ 64 then .ok (BitVec.ofNat 64 n) else .error .literalTooWide
  | .var k =>
    match vars.lookup k with
    | some v => .ok v
    | none => .error (.undefinedVariable k)

/-- The command word a line drives (R70). -/
def ScriptOp.word : ScriptOp → CmdWord
  | .command i => encode i
  | .raw op => op

/-- The encoding of a line: the pair `(op, a)` (R70). -/
def ScriptLine.encoding (vars : HostVars) (l : ScriptLine) : Except AsmError (CmdWord × Word) :=
  match l.operand.value vars with
  | .ok a => .ok (l.op.word, a)
  | .error e => .error e

/-- The host variables after a result has been given to a line's variable, if it names one. -/
def assign (dest : Option Nat) (y : Word) (vars : HostVars) : HostVars :=
  match dest with
  | some k => (k, y) :: vars
  | none => vars

/-- Runs a script: each line is one transaction, and its result is the value of the line's variable (D20). -/
def runScript : List ScriptLine → HostVars → State → Except AsmError (HostVars × State)
  | [], vars, s => .ok (vars, s)
  | l :: rest, vars, s =>
    match l.encoding vars with
    | .error e => .error e
    | .ok (op, a) => runScript rest (assign l.dest (transact op a s).y vars) (transact op a s)

/-! ### Pseudo-commands -/

/-- The pseudo-commands of R71: the source's six function names, `FIELDS.f` and `RT.f`. -/
inductive Pseudo where
  | decodeHalf
  | encodeHalf
  | decodeSingle
  | encodeSingle
  | decodeDouble
  | encodeDouble
  | fields (f : Fmt)
  | roundTrip (f : Fmt)
deriving DecidableEq, Repr

/-- A pseudo-command expanded to lines (R71). DESIGN CHOICE (log 4): the results are the host variables `td`, `t(d+1)`, ... in the
order of the expansion. -/
def Pseudo.expand (d : Nat) (x : ScriptOperand) : Pseudo → List ScriptLine
  | .decodeHalf => [⟨some d, .command .decH, x⟩]
  | .encodeHalf => [⟨some d, .command .encH, x⟩]
  | .decodeSingle => [⟨some d, .command .decS, x⟩]
  | .encodeSingle => [⟨some d, .command .encS, x⟩]
  | .decodeDouble => [⟨some d, .command .decD, x⟩]
  | .encodeDouble => [⟨some d, .command .encD, x⟩]
  | .fields f =>
    [⟨some d, .command (Instr.of .xsgn f), x⟩, ⟨some (d + 1), .command (Instr.of .xexp f), x⟩,
     ⟨some (d + 2), .command (Instr.of .xfrc f), x⟩]
  | .roundTrip f => [⟨some d, .command (Instr.of .dec f), x⟩, ⟨some (d + 1), .command (Instr.of .enc f), .var d⟩]

/-! ### The text of a line -/

/-- The stem of a mnemonic (R62). -/
def stemOf : Func → List Char
  | .dec => ['D', 'E', 'C']
  | .enc => ['E', 'N', 'C']
  | .xsgn => ['X', 'S', 'G', 'N']
  | .xexp => ['X', 'E', 'X', 'P']
  | .xfrc => ['X', 'F', 'R', 'C']
  | .cls => ['C', 'L', 'A', 'S', 'S']

/-- The format suffix of a mnemonic (R61, R70). -/
def suffixOf : Fmt → Char
  | .h => 'H'
  | .s => 'S'
  | .d => 'D'

/-- The mnemonic of a command: stem, dot, format (R63, R70). -/
def mnemonicOf (i : Instr) : List Char := stemOf i.func ++ ['.', suffixOf i.fmt]

/-- All 18 commands, in the order of R63. -/
def allInstrs : List Instr :=
  [.decH, .decS, .decD, .encH, .encS, .encD, .xsgnH, .xsgnS, .xsgnD, .xexpH, .xexpS, .xexpD, .xfrcH, .xfrcS, .xfrcD,
   .classH, .classS, .classD]

/-- The command a mnemonic names. -/
def instrOfMnemonic (cs : List Char) : Option Instr := allInstrs.find? fun i => mnemonicOf i == cs

/-- The pseudo-command a name stands for (R71). -/
def pseudoOfName (cs : List Char) : Option Pseudo :=
  if cs = "decodeHalf".toList then some .decodeHalf
  else if cs = "encodeHalf".toList then some .encodeHalf
  else if cs = "decodeSingle".toList then some .decodeSingle
  else if cs = "encodeSingle".toList then some .encodeSingle
  else if cs = "decodeDouble".toList then some .decodeDouble
  else if cs = "encodeDouble".toList then some .encodeDouble
  else if cs = "FIELDS.H".toList then some (.fields .h)
  else if cs = "FIELDS.S".toList then some (.fields .s)
  else if cs = "FIELDS.D".toList then some (.fields .d)
  else if cs = "RT.H".toList then some (.roundTrip .h)
  else if cs = "RT.S".toList then some (.roundTrip .s)
  else if cs = "RT.D".toList then some (.roundTrip .d)
  else none

/-- The value of a decimal digit. -/
def decDigit (c : Char) : Option Nat := if 48 ≤ c.toNat ∧ c.toNat ≤ 57 then some (c.toNat - 48) else none

/-- The value of a hexadecimal digit; capitals as the spec writes them, small letters as well (log 4). -/
def hexDigit (c : Char) : Option Nat :=
  if 48 ≤ c.toNat ∧ c.toNat ≤ 57 then some (c.toNat - 48)
  else if 65 ≤ c.toNat ∧ c.toNat ≤ 70 then some (c.toNat - 55)
  else if 97 ≤ c.toNat ∧ c.toNat ≤ 102 then some (c.toNat - 87)
  else none

/-- The number a list of digits stands for, the most significant first (20_memory.md R41). -/
def readDigits (digit : Char → Option Nat) (base : Nat) : Nat → List Char → Option Nat
  | acc, [] => some acc
  | acc, c :: cs =>
    match digit c with
    | some v => readDigits digit base (acc * base + v) cs
    | none => none

/-- A literal: `0x` and hexadecimal digits, or decimal digits (R70). DESIGN CHOICE (log 4): it has at least one digit, and the `x` is
small. -/
def readLiteral : List Char → Option Nat
  | '0' :: 'x' :: c :: cs => readDigits hexDigit 16 0 (c :: cs)
  | ['0', 'x'] => none
  | [] => none
  | c :: cs => readDigits decDigit 10 0 (c :: cs)

/-- A host variable: `t` and decimal digits (R70). DESIGN CHOICE (log 4): the digits are read as a number, so leading zeros do not
count and `t00` is `t0`. -/
def readVar : List Char → Option Nat
  | 't' :: c :: cs => readDigits decDigit 10 0 (c :: cs)
  | _ => none

/-- An operand: a host variable or a literal (R70). A text that is neither is no operand. -/
def readOperand (cs : List Char) : Option ScriptOperand :=
  match readVar cs with
  | some k => some (.var k)
  | none => (readLiteral cs).map .lit

/-- The parts of a text between its blanks. DESIGN CHOICE (log 4): the parts are separated by exactly one blank, one blank at the end
of the text is dropped, and any other blank (a leading one, a second one) makes an empty part, which no line has. -/
def words : List Char → List (List Char)
  | [] => []
  | c :: cs =>
    if c = ' ' then [] :: words cs
    else
      match words cs with
      | [] => [[c]]
      | w :: ws => (c :: w) :: ws

/-- A line of text: a plain line, or a pseudo-command still to be expanded. -/
inductive ScriptItem where
  | line (l : ScriptLine)
  | pseudo (dest : Option Nat) (p : Pseudo) (x : ScriptOperand)
deriving DecidableEq, Repr

/-- Runs an item: a plain line, or the expansion of a pseudo-command (R71). DESIGN CHOICE (log 4): where the text names no result, a
pseudo-command's first result is the host's variable `fresh`; and its operand is read once, before its first line, so that every line of
`FIELDS.f` works on the same `p` even when a result takes the operand's name. -/
def runItem (fresh : Nat) (vars : HostVars) (s : State) : ScriptItem → Except AsmError (HostVars × State)
  | .line l => runScript [l] vars s
  | .pseudo dest q x =>
    match x.value vars with
    | .ok a => runScript (q.expand (dest.getD fresh) (.lit a.toNat)) vars s
    | .error e => .error e

/-- A line without its result name: `MNEMONIC operand`, `.op 0xNN operand`, or a pseudo-command (R70, R71). The word after
`.op` is written with two hexadecimal digits. -/
def readBody (dest : Option Nat) : List (List Char) → Except AsmError ScriptItem
  | [m, x] =>
    match instrOfMnemonic m, pseudoOfName m, readOperand x with
    | some i, _, some o => .ok (.line ⟨dest, .command i, o⟩)
    | none, some p, some o => .ok (.pseudo dest p o)
    | _, _, _ => .error .malformed
  | [['.', 'o', 'p'], ['0', 'x', u, v], x] =>
    match readDigits hexDigit 16 0 [u, v], readOperand x with
    | some w, some o => .ok (.line ⟨dest, .raw (BitVec.ofNat 8 w), o⟩)
    | _, _ => .error .malformed
  | _ => .error .malformed

/-- A line of text: `tk = ` before a line names its result (R70); before a pseudo-command it names the first one (log 4). -/
def readItem (cs : List Char) : Except AsmError ScriptItem :=
  match words cs with
  | v :: ['='] :: body =>
    match readVar v with
    | some k => readBody (some k) body
    | none => .error .malformed
  | body => readBody none body

/-- One hexadecimal digit, written in capitals (R70). -/
def hexChar (n : Nat) : Char := if n < 10 then Char.ofNat (n + 48) else Char.ofNat (n + 55)

/-- The low `4 * k` bits of `n` as `k` hexadecimal digits, the most significant first. -/
def hexDigits : Nat → Nat → List Char
  | 0, _ => []
  | k + 1, n => hexDigits k (n / 16) ++ [hexChar (n % 16)]

/-- The text of a command on an operand: `MNEMONIC operand` (R70). DESIGN CHOICE (log 4): the operand is written as a hexadecimal
literal of 16 digits, where R70 allows any literal, hexadecimal or decimal; all of them are read (`readLiteral`). -/
def showCommand (i : Instr) (a : Word) : List Char := mnemonicOf i ++ [' ', '0', 'x'] ++ hexDigits 16 a.toNat

/-- A command with its result written after it, `-> 0x...` (R70). DESIGN CHOICE (log 4): as many digits as the result width fills. -/
def showTransaction (i : Instr) (a y : Word) : List Char :=
  showCommand i a ++ [' ', '-', '>', ' ', '0', 'x'] ++ hexDigits ((resultWidth i + 3) / 4) y.toNat

/-- The text of a line's encoding: `op=0xNN a=0x<16 hex digits>` (R70). -/
def showEncoding (op : CmdWord) (a : Word) : List Char :=
  "op=0x".toList ++ hexDigits 2 op.toNat ++ " a=0x".toList ++ hexDigits 16 a.toNat

/-- The encoding of a line of text that is a plain line (R70). -/
def assemble (vars : HostVars) (cs : List Char) : Except AsmError (CmdWord × Word) :=
  match readItem cs with
  | .ok (.line l) => l.encoding vars
  | .ok (.pseudo _ _ _) => .error .malformed
  | .error e => .error e

end Sys2Proof.Machine
end

