-- ==== Sys2Proof/Machine/Reference.lean ====
section
/-! DEFINITION. The spec's own descriptions of the block, written apart from the machine so that claims can compare the two: the
top-level function of 30_encoding.md R68, the packing of 43_encode.md R139 over exact rationals (00_scope.md R10, R13), the
source's value formulas (42_decode.md R110), the closed forms of R118, R119 and R141, and the canonical patterns of R150. The
step function uses nothing of this file. -/

namespace Sys2Proof.Machine

/-- The format a legal word's `fmt` field selects, as R68 writes it: `H` if 0, `S` if 1, `D` if 2. -/
def formatOfField (fmt : Nat) : Fmt := if fmt = 0 then .h else if fmt = 1 then .s else .d

/-- The result R68 gives a legal word with function number `func` and format `f`. -/
def resultOfField (func : Nat) (f : Fmt) (a : Word) : Nat :=
  if func = 0 then decodeOut f (patternOperand f a)
  else if func = 1 then encodeOut f (nativeOperand f a)
  else if func = 2 then (fieldsOf f (patternOperand f a)).sign.toNat
  else if func = 3 then (fieldsOf f (patternOperand f a)).exp
  else if func = 4 then (fieldsOf f (patternOperand f a)).frac
  else (classOf f (patternOperand f a)).code

/-- `Step(op, a) -> (y, ill)`: the block as one function of its two inputs (R21, R68). -/
def topLevel (op : CmdWord) (a : Word) : Word × Bool :=
  if slice op.toNat 7 5 ≠ 0 ∨ slice op.toNat 1 0 = 3 ∨ 6 ≤ slice op.toNat 4 2 then (0#64, true)
  else (BitVec.ofNat 64 (resultOfField (slice op.toNat 4 2) (formatOfField (slice op.toNat 1 0)) a), false)

/-! ### Values as rationals -/

/-- The magnitude `v` of a finite value (R11); infinities and NaNs have none. -/
def Value.magnitude? : Value → Option ℚ
  | .zero _ => some 0
  | .fin _ M E => some ((M : ℚ) * 2 ^ E)
  | .inf _ => none
  | .nan _ => none

/-- Two values are the same: finite ones are compared by `M * 2^E`, not by the pair (R11). -/
def Value.same : Value → Value → Prop
  | .zero s, .zero t => s = t
  | .fin s M E, .fin t N F => s = t ∧ (M : ℚ) * 2 ^ E = (N : ℚ) * 2 ^ F
  | .inf s, .inf t => s = t
  | .nan s, .nan t => s = t
  | _, _ => False

/-- The largest finite magnitude of a format, `(2 - 2^-FB) * 2^(EMAX_FIELD - 1 - BIAS)` (R6). -/
def largestFinite (f : Fmt) : ℚ := (2 - 1 / 2 ^ f.fracBits) * 2 ^ ((f.emaxField : ℤ) - 1 - f.bias)

/-- `RNE(q)` as R13 states it, with `n = floor(q)` and `r = q - n`. -/
def rneRat (q : ℚ) : ℤ :=
  if q - ⌊q⌋ < 1 / 2 then ⌊q⌋
  else if 1 / 2 < q - ⌊q⌋ then ⌊q⌋ + 1
  else if ⌊q⌋ % 2 = 0 then ⌊q⌋ else ⌊q⌋ + 1

/-- The finite case of `RoundPack(f, X)` as R139 writes it, for the magnitude `v > 0` and its exponent `e`,
`2^e <= v < 2^(e+1)`. -/
def packFiniteRat (f : Fmt) (s : Bool) (v : ℚ) (e : ℤ) : ℤ :=
  if (f.emaxField : ℤ) ≤ e + f.bias then signPattern f s + f.emaxField * 2 ^ f.fracBits
  else if e + f.bias ≤ 0 then
    if (f.fracBits : ℤ) < 1 - (e + f.bias) then signPattern f s
    else signPattern f s + rneRat (v / 2 ^ e * 2 ^ f.fracBits / 2 ^ (1 - (e + f.bias)))
  else if (f.emaxField : ℤ) * 2 ^ f.fracBits ≤
      (e + f.bias) * 2 ^ f.fracBits + rneRat ((v / 2 ^ e - 1) * 2 ^ f.fracBits) then
    signPattern f s + f.emaxField * 2 ^ f.fracBits
  else signPattern f s + ((e + f.bias) * 2 ^ f.fracBits + rneRat ((v / 2 ^ e - 1) * 2 ^ f.fracBits))

/-! ### Canonical patterns and closed forms -/

/-- A canonical BitPattern (R150): not a NaN, or one of the two NaNs ENC produces. -/
def canonicalPattern (f : Fmt) (p : Nat) : Bool :=
  classOf f p != .nan || p == nanPattern f false || p == nanPattern f true

/-- `{s, e8, f23} = s * 2^31 + e8 * 2^23 + f23` (R118). -/
def singlePattern (s : Bool) (e8 f23 : Nat) : Nat := s.toNat * 2 ^ 31 + e8 * 2 ^ 23 + f23

/-- The closed form of `DEC.H` for fields `(s, E, F)` (R118); `Nat.log2 F` is the index of the highest set bit of `F`. -/
def decHClosedForm (s : Bool) (E F : Nat) : Nat :=
  if E = 31 ∧ F = 0 then singlePattern s 0xFF 0
  else if E = 31 then singlePattern s 0xFF 0x400000
  else if E = 0 ∧ F = 0 then singlePattern s 0x00 0
  else if E = 0 then singlePattern s (Nat.log2 F + 103) ((F - 2 ^ Nat.log2 F) * 2 ^ (23 - Nat.log2 F))
  else singlePattern s (E + 112) (F * 2 ^ 13)

/-- `ENC.H` on a binary32 pattern with the sign `s` and the other 31 bits `mag`, by the ranges of R141: NaN; infinity from 65520
(0x477FF000) on; signed zero below 2^-24 (0x33800000); a subnormal `RNE(v * 2^24)` below 2^-14 (0x38800000), where
`v * 2^24 = (2^23 + F) / 2^(126 - E)`; else 13 fraction bits dropped, ties to even, after the exponent is rebiased by 112. -/
def encHClosedForm (s : Bool) (mag : Nat) : Nat :=
  if 0x7F800000 < mag then s.toNat * 0x8000 + 0x7E00
  else if 0x477FF000 ≤ mag then s.toNat * 0x8000 + 0x7C00
  else if mag < 0x33800000 then s.toNat * 0x8000
  else if mag < 0x38800000 then s.toNat * 0x8000 + rne (2 ^ 23 + mag % 2 ^ 23) (2 ^ (126 - mag / 2 ^ 23))
  else s.toNat * 0x8000 + rne (mag - 112 * 2 ^ 23) (2 ^ 13)

end Sys2Proof.Machine
end

