-- ==== Sys2Proof/Safety.lean ====
section
/-! DEFINITION. What claims about runs of the block are made in: settled port values (10_state.md R21, R33), legal words, and
runs free of illegal commands (60_exceptions.md R161). -/

namespace Sys2Proof

open Sys2Proof.Machine

/-- The outputs equal `Step(op, a)` of the inputs present (R33, 70_reset_and_hazards.md R180). -/
abbrev Settled (s : State) : Prop := (s.y, s.ill) = topLevel s.op s.a

/-- A settled instance that has been stable long enough for the host to sample it (R182). -/
abbrev ReadyPort (p : Port) : Prop := Config.tProp ≤ p.heldFor

/-- The word is one of the 18 legal ones (30_encoding.md R63, R67). -/
abbrev LegalWord (op : CmdWord) : Prop := isReserved op = false

/-- A sequence of transactions none of which issues a reserved word: the premise R161 names. -/
abbrev LegalRun (ts : List (CmdWord × Word)) : Prop := ∀ x ∈ ts, LegalWord x.1

/-- Every answer of the run has `ill = 0`. -/
abbrev NoIllegal (answers : List Sample) : Prop := ∀ r ∈ answers, r.ill = false

end Sys2Proof
end

