-- ==== Sys2Proof/Certificates/Slice0/Obligations.lean ====
section
/-! DEFINITION. The statements about the model, from the numbered rules of the spec. The block has no registers and no memory, so a
frame is the equality of the next state with the old one but for the output ports `y` and `ill`. -/

open Sys2Proof Sys2Proof.Machine

/-! ### The step and the command word -/

/-- 70_reset_and_hazards.md R180: at power-up too the outputs are `Step(op, a)` of the inputs present. The inputs present in
`State.reset` are the model's choice (log 1). -/
def Obligations.ResetOutputsAreSettled : Prop := Settled State.reset

/-- 10_state.md R21 and R33: whatever the ports showed before, a step leaves outputs that equal `Step(op, a)` of the inputs. -/
def Obligations.EveryStepSettlesTheOutputs : Prop :=
  ∀ s t : State, step s = .next t → Settled t ∧ t.op = s.op ∧ t.a = s.a

/-- 20_memory.md R46: evaluating the same transaction again gives the same outputs, so settled ports do not change. -/
def Obligations.SettledPortsAreAFixedPoint : Prop :=
  ∀ s : State, Settled s → step s = .next s

/-- 30_encoding.md R68: the step is the top-level function of the spec, for all 256 words and every operand. -/
def Obligations.StepIsTheTopLevelFunction : Prop :=
  ∀ s : State, step s = .next { s with y := (topLevel s.op s.a).1, ill := (topLevel s.op s.a).2 }

/-- The step evaluates the word on `op` (10_state.md R28, 30_encoding.md R68): it is `exec` of the decoded command. The second clause is
the model's choice (log 2, DEDUCED): `withFetchWord` stands for the host placing a command's word on `op`, and the next step is that
command. -/
def Obligations.StepRunsTheCommandOnOp : Prop :=
  (∀ (s : State) (i : Instr), decode s.op = .ok i → step s = exec i s) ∧
  (∀ (s : State) (i : Instr),
    step (s.withFetchWord 8 (encode i).toNat) = exec i { s with op := encode i })

/-- 30_encoding.md R67 and 10_state.md R25: the three ranges of reserved words drive `y = 0`, `ill = 1` whatever the operand, every
other word drives `ill = 0`, and 238 words are reserved. -/
def Obligations.ReservedWordsDriveOnlyIll : Prop :=
  (∀ s : State, (0x20 ≤ s.op.toNat ∨ s.op.toNat % 4 = 3 ∨ (0x18 ≤ s.op.toNat ∧ s.op.toNat ≤ 0x1F)) →
    step s = .next { s with y := 0#64, ill := true }) ∧
  (∀ s : State, ¬ (0x20 ≤ s.op.toNat ∨ s.op.toNat % 4 = 3 ∨ (0x18 ≤ s.op.toNat ∧ s.op.toNat ≤ 0x1F)) →
    ∃ t, step s = .next t ∧ t.ill = false) ∧
  (List.range 256).countP (fun n => isReserved (BitVec.ofNat 8 n)) = 238

/-- 30_encoding.md R63: the 18 words of the opcode table are the 18 commands. -/
def Obligations.DecodeReadsTheTableWords : Prop :=
  decode 0x00#8 = .ok .decH ∧ decode 0x01#8 = .ok .decS ∧ decode 0x02#8 = .ok .decD ∧
  decode 0x04#8 = .ok .encH ∧ decode 0x05#8 = .ok .encS ∧ decode 0x06#8 = .ok .encD ∧
  decode 0x08#8 = .ok .xsgnH ∧ decode 0x09#8 = .ok .xsgnS ∧ decode 0x0A#8 = .ok .xsgnD ∧
  decode 0x0C#8 = .ok .xexpH ∧ decode 0x0D#8 = .ok .xexpS ∧ decode 0x0E#8 = .ok .xexpD ∧
  decode 0x10#8 = .ok .xfrcH ∧ decode 0x11#8 = .ok .xfrcS ∧ decode 0x12#8 = .ok .xfrcD ∧
  decode 0x14#8 = .ok .classH ∧ decode 0x15#8 = .ok .classS ∧ decode 0x16#8 = .ok .classD

/-- 30_encoding.md R69: a command's word decodes to it, and no command has two encodings. -/
def Obligations.DecodeAndEncodeAgree : Prop :=
  (∀ i : Instr, i.wellFormed = true → decode (encode i) = .ok i) ∧
  (∀ (op : CmdWord) (i : Instr), decode op = .ok i → op = encode i)

/-- 30_encoding.md R63, R67: a word is a command exactly when a row of the opcode table matches it, and no word matches two rows. -/
def Obligations.OpcodeTableIsTheDecoder : Prop :=
  (∀ (op : CmdWord) (i : Instr),
    decode op = .ok i ↔ ∃ r ∈ opcodeTable, op &&& r.mask = r.bits ∧ r.instr = i) ∧
  opcodeTable.Pairwise (fun r q => ∀ op : CmdWord, ¬ (op &&& r.mask = r.bits ∧ op &&& q.mask = q.bits))

/-- 10_state.md R32: two transactions with the same `op` and `a` give the same `y` and `ill`, whatever came before. -/
def Obligations.OutputsDependOnlyOnTheInputs : Prop :=
  ∀ s u : State, s.op = u.op → s.a = u.a →
    ∃ t v, step s = .next t ∧ step u = .next v ∧ t.y = v.y ∧ t.ill = v.ill

/-- 60_exceptions.md R160: every command completes for every operand, is not flagged, and leaves the inputs as driven. -/
def Obligations.EveryCommandCompletes : Prop :=
  ∀ (i : Instr) (s : State), ∃ t, exec i s = .next t ∧ t.ill = false ∧ t.op = s.op ∧ t.a = s.a

/-- 30_encoding.md R64: the bits of `a` above the operand width are ignored: changing them changes no output. -/
def Obligations.BitsAboveTheOperandAreIgnored : Prop :=
  ∀ (i : Instr) (s : State) (b : Word),
    s.a.toNat % 2 ^ operandWidth i = b.toNat % 2 ^ operandWidth i →
    ∃ t u, exec i s = .next t ∧ exec i { s with a := b } = .next u ∧ t.y = u.y ∧ t.ill = u.ill

/-- 30_encoding.md R65: a result is zero-extended, so every bit of `y` above the result width is 0. -/
def Obligations.BitsAboveTheResultAreZero : Prop :=
  ∀ (i : Instr) (s : State), ∃ t, exec i s = .next t ∧ t.y.toNat < 2 ^ resultWidth i

/-! ### The extractor -/

/-- 40_fields.md R81 to R83: XSGN drives the sign bit `a[15]`, `a[31]` or `a[63]`, zero-extended. -/
def Obligations.XsgnDrivesTheSignBit : Prop :=
  ∀ s : State,
    exec .xsgnH s = .next { s with y := (s.a.extractLsb' 15 1).setWidth 64, ill := false } ∧
    exec .xsgnS s = .next { s with y := (s.a.extractLsb' 31 1).setWidth 64, ill := false } ∧
    exec .xsgnD s = .next { s with y := (s.a.extractLsb' 63 1).setWidth 64, ill := false }

/-- 40_fields.md R84 to R86: XEXP drives `a[14:10]`, `a[30:23]` or `a[62:52]`, zero-extended. -/
def Obligations.XexpDrivesTheBiasedExponent : Prop :=
  ∀ s : State,
    exec .xexpH s = .next { s with y := (s.a.extractLsb' 10 5).setWidth 64, ill := false } ∧
    exec .xexpS s = .next { s with y := (s.a.extractLsb' 23 8).setWidth 64, ill := false } ∧
    exec .xexpD s = .next { s with y := (s.a.extractLsb' 52 11).setWidth 64, ill := false }

/-- 40_fields.md R87 to R89: XFRC drives `a[9:0]`, `a[22:0]` or `a[51:0]`, zero-extended. -/
def Obligations.XfrcDrivesTheFraction : Prop :=
  ∀ s : State,
    exec .xfrcH s = .next { s with y := (s.a.extractLsb' 0 10).setWidth 64, ill := false } ∧
    exec .xfrcS s = .next { s with y := (s.a.extractLsb' 0 23).setWidth 64, ill := false } ∧
    exec .xfrcD s = .next { s with y := (s.a.extractLsb' 0 52).setWidth 64, ill := false }

/-- 40_fields.md R90: the three extractions, put together with widths 1, `EB(f)` and `FB(f)`, give the pattern back. -/
def Obligations.ExtractedFieldsReassemble : Prop :=
  ∀ (f : Fmt) (s : State), ∃ t u v,
    exec (Instr.of .xsgn f) s = .next t ∧ exec (Instr.of .xexp f) s = .next u ∧ exec (Instr.of .xfrc f) s = .next v ∧
    t.y.toNat < 2 ∧ u.y.toNat < 2 ^ f.expBits ∧ v.y.toNat < 2 ^ f.fracBits ∧
    (t.y.toNat * 2 ^ f.expBits + u.y.toNat) * 2 ^ f.fracBits + v.y.toNat = s.a.toNat % 2 ^ f.width

/-! ### The classifier -/

/-- 41_classify.md R101 to R104: the class code by the magnitude bits of the operand: zero, subnormals up to the largest, normals
up to the largest, infinity, NaNs. The sign bit does not matter. -/
def Obligations.ClassCodesByMagnitude : Prop :=
  ∀ s : State,
    exec .classH s = .next { s with
      y := if s.a.toNat % 0x8000 = 0 then 0#64 else if s.a.toNat % 0x8000 ≤ 0x03FF then 1#64
        else if s.a.toNat % 0x8000 ≤ 0x7BFF then 2#64 else if s.a.toNat % 0x8000 = 0x7C00 then 3#64 else 4#64,
      ill := false } ∧
    exec .classS s = .next { s with
      y := if s.a.toNat % 0x80000000 = 0 then 0#64 else if s.a.toNat % 0x80000000 ≤ 0x007FFFFF then 1#64
        else if s.a.toNat % 0x80000000 ≤ 0x7F7FFFFF then 2#64
        else if s.a.toNat % 0x80000000 = 0x7F800000 then 3#64 else 4#64,
      ill := false } ∧
    exec .classD s = .next { s with
      y := if s.a.toNat % 0x8000000000000000 = 0 then 0#64
        else if s.a.toNat % 0x8000000000000000 ≤ 0x000FFFFFFFFFFFFF then 1#64
        else if s.a.toNat % 0x8000000000000000 ≤ 0x7FEFFFFFFFFFFFFF then 2#64
        else if s.a.toNat % 0x8000000000000000 = 0x7FF0000000000000 then 3#64 else 4#64,
      ill := false }

/-- 41_classify.md R105: the class agrees with the decoded value, and the smallest normal separates subnormals from normals. -/
def Obligations.ClassAgreesWithTheValue : Prop :=
  ∀ (f : Fmt) (p : Nat), p < 2 ^ f.width →
    (classOf f p = .zero ↔ ∃ s, decodeValue f p = .zero s) ∧
    (classOf f p = .infinity ↔ ∃ s, decodeValue f p = .inf s) ∧
    (classOf f p = .nan ↔ ∃ s, decodeValue f p = .nan s) ∧
    ((classOf f p = .subnormal ∨ classOf f p = .normal) ↔ ∃ s M E, decodeValue f p = .fin s M E) ∧
    (classOf f p = .subnormal → ∃ v, (decodeValue f p).magnitude? = some v ∧ 0 < v ∧ v < 2 ^ f.minNormalExp) ∧
    (classOf f p = .normal → ∃ v, (decodeValue f p).magnitude? = some v ∧ 2 ^ f.minNormalExp ≤ v)

/-! ### The decoder -/

/-- 42_decode.md R110: the magnitude of a pattern by the source's own formulas,
`fraction * 2^(1 - bias - FB)` and `(1 + fraction / 2^FB) * 2^(exponent - bias)`, and the cases of the all-ones exponent. -/
def Obligations.DecodedValuesFollowTheFormulas : Prop :=
  ∀ (f : Fmt) (s : Bool) (E F : Nat), E < 2 ^ f.expBits → F < 2 ^ f.fracBits →
    (E = f.emaxField → F = 0 → decodeValue f (packFields f ⟨s, E, F⟩) = .inf s) ∧
    (E = f.emaxField → F ≠ 0 → decodeValue f (packFields f ⟨s, E, F⟩) = .nan s) ∧
    (E = 0 → F = 0 → decodeValue f (packFields f ⟨s, E, F⟩) = .zero s) ∧
    (E = 0 → F ≠ 0 → ∃ M X, decodeValue f (packFields f ⟨s, E, F⟩) = .fin s M X ∧
      (M : ℚ) * 2 ^ X = (F : ℚ) * 2 ^ (1 - (f.bias : ℤ) - f.fracBits)) ∧
    (0 < E → E < f.emaxField → ∃ M X, decodeValue f (packFields f ⟨s, E, F⟩) = .fin s M X ∧
      (M : ℚ) * 2 ^ X = (1 + (F : ℚ) / 2 ^ f.fracBits) * 2 ^ ((E : ℤ) - f.bias))

/-- 00_scope.md R6: the smallest subnormal, the smallest normal and the largest finite value are values of the format, and every other
nonzero finite value lies between the first and the last. -/
def Obligations.FiniteRangeOfAFormat : Prop :=
  ∀ f : Fmt,
    (decodeValue f (packFields f ⟨false, 0, 1⟩)).magnitude? = some (2 ^ (1 - (f.bias : ℤ) - f.fracBits)) ∧
    (decodeValue f (packFields f ⟨false, 1, 0⟩)).magnitude? = some (2 ^ (1 - (f.bias : ℤ))) ∧
    (decodeValue f (packFields f ⟨false, f.emaxField - 1, 2 ^ f.fracBits - 1⟩)).magnitude? = some (largestFinite f) ∧
    ∀ (p : Nat) (v : ℚ), p < 2 ^ f.width → (decodeValue f p).magnitude? = some v →
      v = 0 ∨ (2 ^ (1 - (f.bias : ℤ) - f.fracBits) ≤ v ∧ v ≤ largestFinite f)

/-- 42_decode.md R118: DEC.H is the closed form, for all 65536 patterns, and leaves everything but the outputs. -/
def Obligations.DecHIsItsClosedForm : Prop :=
  ∀ s : State, exec .decH s = .next { s with
    y := BitVec.ofNat 64 (decHClosedForm (s.a.getLsbD 15) (s.a.toNat / 2 ^ 10 % 2 ^ 5) (s.a.toNat % 2 ^ 10)), ill := false }

/-- 42_decode.md R119: DEC.S and DEC.D give every pattern that is not a NaN back unchanged, and a NaN as the canonical quiet NaN
with its sign. -/
def Obligations.DecSAndDecDAreTheIdentityOffNaN : Prop :=
  ∀ s : State,
    exec .decS s = .next { s with
      y := if s.a.toNat % 0x80000000 ≤ 0x7F800000 then (s.a.setWidth 32).setWidth 64
        else if s.a.getLsbD 31 then 0xFFC00000#64 else 0x7FC00000#64,
      ill := false } ∧
    exec .decD s = .next { s with
      y := if s.a.toNat % 0x8000000000000000 ≤ 0x7FF0000000000000 then s.a
        else if s.a.getLsbD 63 then 0xFFF8000000000000#64 else 0x7FF8000000000000#64,
      ill := false }

/-- 42_decode.md R112: DEC of a NaN drives the canonical quiet NaN of the native format with the NaN's sign. -/
def Obligations.DecOfNaNIsTheCanonicalQuietNaN : Prop :=
  ∀ (f : Fmt) (s : State) (g : Bool), decodeValue f (s.a.toNat % 2 ^ f.width) = .nan g →
    exec (Instr.of .dec f) s = .next { s with
      y := match f with
        | .h => BitVec.ofNat 64 (g.toNat * 0x80000000 + 0x7FC00000)
        | .s => BitVec.ofNat 64 (g.toNat * 0x80000000 + 0x7FC00000)
        | .d => BitVec.ofNat 64 (g.toNat * 0x8000000000000000 + 0x7FF8000000000000),
      ill := false }

/-- 42_decode.md R114: decoding is exact: the pattern DEC drives stands, in the native format, for the value of the operand. -/
def Obligations.DecodingIsExact : Prop :=
  ∀ (f : Fmt) (s : State), ∃ t, exec (Instr.of .dec f) s = .next t ∧
    Value.same (decodeValue f.native t.y.toNat) (decodeValue f (s.a.toNat % 2 ^ f.width))

/-! ### Rounding and the encoder -/

/-- 00_scope.md R13: the machine's rounding of a quotient is round half to even of the rational. -/
def Obligations.RoundingIsHalfToEven : Prop :=
  ∀ num den : Nat, 0 < den → (rne num den : ℤ) = rneRat ((num : ℚ) / den)

/-- 43_encode.md R134: `e` is the integer with `2^e <= v < 2^(e+1)`, and no other integer is. -/
def Obligations.UnbiasedExponentBracketsTheValue : Prop :=
  ∀ (M : Nat) (E e : ℤ), 0 < M →
    ((2 : ℚ) ^ e ≤ (M : ℚ) * 2 ^ E ∧ (M : ℚ) * 2 ^ E < 2 ^ (e + 1) ↔ e = unbiasedExp M E)

/-- 43_encode.md R139: the machine's packing is the spec's algorithm, for a finite value over exact rationals and whatever numbers
`M` and `E` hold the value. -/
def Obligations.PackingFollowsTheRationalAlgorithm : Prop :=
  ∀ (f : Fmt) (s : Bool),
    roundPack f (.nan s) = s.toNat * 2 ^ (f.width - 1) + f.emaxField * 2 ^ f.fracBits + f.qbit ∧
    roundPack f (.inf s) = s.toNat * 2 ^ (f.width - 1) + f.emaxField * 2 ^ f.fracBits ∧
    roundPack f (.zero s) = s.toNat * 2 ^ (f.width - 1) ∧
    ∀ (M : Nat) (E e : ℤ), 0 < M → (2 : ℚ) ^ e ≤ (M : ℚ) * 2 ^ E → (M : ℚ) * 2 ^ E < 2 ^ (e + 1) →
      (roundPack f (.fin s M E) : ℤ) = packFiniteRat f s ((M : ℚ) * 2 ^ E) e

/-- 43_encode.md R131 to R133: a NaN, an infinity and a zero are packed with the value's sign; the canonical NaNs are the patterns the
spec lists. -/
def Obligations.SpecialValuesArePackedWithTheirSign : Prop :=
  (∀ (f : Fmt) (s : Bool),
    roundPack f (.nan s) = packFields f ⟨s, f.emaxField, f.qbit⟩ ∧
    roundPack f (.inf s) = packFields f ⟨s, f.emaxField, 0⟩ ∧
    roundPack f (.zero s) = packFields f ⟨s, 0, 0⟩) ∧
  roundPack .h (.nan false) = 0x7E00 ∧ roundPack .h (.nan true) = 0xFE00 ∧
  roundPack .s (.nan false) = 0x7FC00000 ∧ roundPack .s (.nan true) = 0xFFC00000 ∧
  roundPack .d (.nan false) = 0x7FF8000000000000 ∧ roundPack .d (.nan true) = 0xFFF8000000000000

/-- 43_encode.md R136: exactly the magnitudes below the smallest subnormal become signed zero, with no rounding. -/
def Obligations.BelowTheSmallestSubnormalFlushes : Prop :=
  ∀ (f : Fmt) (s : Bool) (M : Nat) (E : ℤ), 0 < M →
    (roundPack f (.fin s M E) = packFields f ⟨s, 0, 0⟩ ↔ (M : ℚ) * 2 ^ E < 2 ^ (1 - (f.bias : ℤ) - f.fracBits))

/-- 43_encode.md R156: ENC.S and ENC.D give every pattern that is not a NaN back unchanged; R142 and R143: a NaN becomes the
canonical one with its sign. -/
def Obligations.EncSAndEncDAreTheIdentityOffNaN : Prop :=
  ∀ s : State,
    exec .encS s = .next { s with
      y := if s.a.toNat % 0x80000000 ≤ 0x7F800000 then (s.a.setWidth 32).setWidth 64
        else if s.a.getLsbD 31 then 0xFFC00000#64 else 0x7FC00000#64,
      ill := false } ∧
    exec .encD s = .next { s with
      y := if s.a.toNat % 0x8000000000000000 ≤ 0x7FF0000000000000 then s.a
        else if s.a.getLsbD 63 then 0xFFF8000000000000#64 else 0x7FF8000000000000#64,
      ill := false }

/-- 43_encode.md R141: ENC.H for every binary32 operand, by ranges of the operand's magnitude bits. -/
def Obligations.EncHIsItsClosedForm : Prop :=
  ∀ s : State, exec .encH s = .next { s with
    y := BitVec.ofNat 64 (encHClosedForm (s.a.getLsbD 31) (s.a.toNat % 2 ^ 31)), ill := false }

/-! ### Round trips -/

/-- 43_encode.md R151: encoding what was decoded gives every canonical pattern back, and turns every other NaN into the canonical
NaN with its sign. The host drives the result of the first transaction as the operand of the second. -/
def Obligations.EncodeAfterDecodeIsTheIdentity : Prop :=
  ∀ (f : Fmt) (s : State), ∃ t u,
    exec (Instr.of .dec f) s = .next t ∧ exec (Instr.of .enc f) { t with a := t.y } = .next u ∧
    (canonicalPattern f (s.a.toNat % 2 ^ f.width) = true → u.y.toNat = s.a.toNat % 2 ^ f.width) ∧
    (canonicalPattern f (s.a.toNat % 2 ^ f.width) = false →
      u.y.toNat = nanPattern f (s.a.getLsbD (f.width - 1)))

/-- 43_encode.md R152: decoding, encoding and decoding again gives the first decoding, off NaN. -/
def Obligations.DecodeAfterEncodeAfterDecode : Prop :=
  ∀ (f : Fmt) (s : State), classOf f (s.a.toNat % 2 ^ f.width) ≠ .nan → ∃ t u v,
    exec (Instr.of .dec f) s = .next t ∧ exec (Instr.of .enc f) { t with a := t.y } = .next u ∧
    exec (Instr.of .dec f) { u with a := u.y } = .next v ∧ v.y = t.y

/-- 43_encode.md R153: for every NaN both results are quiet NaNs, of the native format and of `f`, with the NaN's sign. -/
def Obligations.NaNRoundTripIsQuietWithItsSign : Prop :=
  ∀ (f : Fmt) (s : State), classOf f (s.a.toNat % 2 ^ f.width) = .nan → ∃ t u,
    exec (Instr.of .dec f) s = .next t ∧ exec (Instr.of .enc f) { t with a := t.y } = .next u ∧
    classOf f.native t.y.toNat = .nan ∧ f.native.qbit ≤ (fieldsOf f.native t.y.toNat).frac ∧
    (fieldsOf f.native t.y.toNat).sign = s.a.getLsbD (f.width - 1) ∧
    classOf f u.y.toNat = .nan ∧ f.qbit ≤ (fieldsOf f u.y.toNat).frac ∧
    (fieldsOf f u.y.toNat).sign = s.a.getLsbD (f.width - 1)

/-- 43_encode.md R154: the negative zero of a format decodes to the negative zero of the native format and is encoded back. -/
def Obligations.SignOfZeroSurvives : Prop :=
  ∀ (f : Fmt) (s : State), s.a.toNat % 2 ^ f.width = 2 ^ (f.width - 1) → ∃ t u,
    exec (Instr.of .dec f) s = .next t ∧ t.y.toNat = 2 ^ (f.native.width - 1) ∧
    exec (Instr.of .enc f) { t with a := t.y } = .next u ∧ u.y.toNat = 2 ^ (f.width - 1)

/-- 43_encode.md R155: the smallest subnormal round-trips exactly; just below it ENC.H gives signed zero; in the other two formats no
value lies between zero and the smallest subnormal. -/
def Obligations.SmallestSubnormalBoundary : Prop :=
  (∀ (f : Fmt) (s : State), s.a.toNat % 2 ^ f.width = 1 → ∃ t u,
    exec (Instr.of .dec f) s = .next t ∧ exec (Instr.of .enc f) { t with a := t.y } = .next u ∧ u.y = 1#64) ∧
  (∀ s : State, s.a.toNat % 2 ^ 32 = 0x337FFFFF → exec .encH s = .next { s with y := 0x0000#64, ill := false }) ∧
  (∀ s : State, s.a.toNat % 2 ^ 32 = 0xB37FFFFF → exec .encH s = .next { s with y := 0x8000#64, ill := false }) ∧
  (∀ (f : Fmt) (p : Nat) (v : ℚ), f ≠ .h → (decodeValue f.native p).magnitude? = some v →
    v = 0 ∨ 2 ^ f.minSubnormalExp ≤ v)

/-- 60_exceptions.md R162: comparing `DEC.H(ENC.H(x))` with `x` tells the host whether ENC.H kept the value, for `x` not a NaN. -/
def Obligations.HostComparisonDetectsInexactEncH : Prop :=
  ∀ s : State, classOf .s (s.a.toNat % 2 ^ 32) ≠ .nan → ∃ t u,
    exec .encH s = .next t ∧ exec .decH { t with a := t.y } = .next u ∧
    (u.y.toNat = s.a.toNat % 2 ^ 32 ↔
      Value.same (decodeValue .h t.y.toNat) (decodeValue .s (s.a.toNat % 2 ^ 32)))

/-! ### The host: transactions, time, instances -/

/-- 70_reset_and_hazards.md R183: in a sequence of transactions each answer is `Step(op, a)` of its own inputs: back-to-back
transactions do not interfere. -/
def Obligations.BackToBackTransactionsDoNotInterfere : Prop :=
  ∀ (ts : List (CmdWord × Word)) (s : State),
    (transactAll ts s).1 = ts.map fun x => { y := (topLevel x.1 x.2).1, ill := (topLevel x.1 x.2).2 }

/-- 70_reset_and_hazards.md R181: the first transaction after power-up gives the same result as any later one. -/
def Obligations.FirstTransactionIsLikeAnyLater : Prop :=
  ∀ (ts : List (CmdWord × Word)) (op : CmdWord) (a : Word),
    (transact op a (transactAll ts State.reset).2).y = (transact op a State.reset).y ∧
    (transact op a (transactAll ts State.reset).2).ill = (transact op a State.reset).ill

/-- 60_exceptions.md R161: a sequence is free of illegal answers exactly when it issues no reserved word, and a reserved word in it
leaves the answers of the others as they are (the answers after it are those of the same sequence without it). -/
def Obligations.IllegalAnswersComeFromReservedWordsAlone : Prop :=
  (∀ (ts : List (CmdWord × Word)) (s : State), LegalRun ts ↔ NoIllegal (transactAll ts s).1) ∧
  (∀ (ts : List (CmdWord × Word)) (op : CmdWord) (a : Word) (s : State), ¬ LegalWord op →
    (transactAll ((op, a) :: ts) s).1 = { y := 0#64, ill := true } :: (transactAll ts s).1)

/-- 10_state.md R33 and 70_reset_and_hazards.md R182: a host that drives an instance and samples it after `T_PROP` gets
`Step(op, a)`, whatever it does meanwhile with the other instances. That only waiting takes time is the model's choice (log 5). -/
def Obligations.SampleAfterSettlingIsStep : Prop :=
  ∀ (x : System) (k : Nat) (op : CmdWord) (a : Word) (acts : List HostAction), k < x.ports.length →
    (∀ act ∈ acts, act.leaves k = true) → Config.tProp ≤ totalDuration acts →
    (((x.act (.drive k op a)).2.after acts).sample k).1 = some { y := (topLevel op a).1, ill := (topLevel op a).2 }

/-- 70_reset_and_hazards.md R180: at power-up too every instance's outputs are `Step(op, a)` of the inputs then present, once they
have been stable for `T_PROP`; and there is at least one instance (60_exceptions.md R168). Which inputs are present at power-up is
the model's choice (log 1), and so is how time is counted (log 5). -/
def Obligations.PowerUpOutputsFollowTheInputs : Prop :=
  0 < System.powerUp.ports.length ∧
  ∀ (k dt : Nat), k < System.powerUp.ports.length → Config.tProp ≤ dt →
    ((System.powerUp.act (.wait dt)).2.sample k).1 =
      some { y := (topLevel State.reset.op State.reset.a).1, ill := (topLevel State.reset.op State.reset.a).2 }

/-- 70_reset_and_hazards.md R182: a sample before the inputs have been stable for `T_PROP` is a free draw; 10_state.md R33: reading
disturbs no port. The model's choices: that the draw is the one numbered `x.draws` and that the counter then grows by one (log 3), and
that sampling takes no time, so that every stable time stays (log 5). The statement holds for every value of the draws. -/
def Obligations.EarlySampleIsAFreeDraw : Prop :=
  ∀ (x : System) (k : Nat) (p : Port), x.ports[k]? = some p → p.heldFor < Config.tProp →
    x.sample k = (some { y := Config.earlyY x.draws, ill := Config.earlyIll x.draws }, { x with draws := x.draws + 1 })

/-- 60_exceptions.md R168: instances share nothing: whatever the host does with the others, an instance keeps its ports. That its
inputs' stable time grows by exactly the time waited, and that driving and sampling take none, is the model's choice (log 5). -/
def Obligations.InstancesShareNothing : Prop :=
  ∀ (x : System) (k : Nat) (acts : List HostAction), (∀ act ∈ acts, act.leaves k = true) →
    (x.after acts).ports[k]? = (x.ports[k]?).map (Port.wait (totalDuration acts))

/-- 10_state.md R33: reading the settled outputs has no side effect: the inputs and the other instances' ports are as before, and reading
again gives the same. The model's choices: that sampling takes no time, so that every stable time stays (log 5), and the counter of
draws, which such a reading does not use (log 3). -/
def Obligations.ReadingSettledOutputsHasNoSideEffect : Prop :=
  ∀ (x : System) (k : Nat) (p : Port), x.ports[k]? = some p → ReadyPort p →
    ((x.sample k).2.sample k).1 = (x.sample k).1 ∧ (x.sample k).2.draws = x.draws ∧
    (∃ q, (x.sample k).2.ports[k]? = some q ∧ q.io.op = p.io.op ∧ q.io.a = p.io.a ∧ q.heldFor = p.heldFor) ∧
    (∀ j, j ≠ k → (x.sample k).2.ports[j]? = x.ports[j]?)

/-! ### Scripts -/

/-- 30_encoding.md R70: the text of a command on a hexadecimal literal assembles to the command's word and the literal. The details of
the text (one blank, a literal of 16 hexadecimal digits) are the model's choice (log 4). -/
def Obligations.AssemblerReadsWhatIsWritten : Prop :=
  ∀ (vars : HostVars) (i : Instr) (a : Word), assemble vars (showCommand i a) = .ok (encode i, a)

/-- 30_encoding.md R70: a literal wider than 64 bits is an assembly error; a narrower one is zero-extended into `a`. That the value and
not the digits count is the model's choice (log 4). -/
def Obligations.LiteralsAreZeroExtendedOrRejected : Prop :=
  ∀ (vars : HostVars) (dest : Option Nat) (op : ScriptOp) (n : Nat),
    (2 ^ 64 ≤ n → ScriptLine.encoding vars ⟨dest, op, .lit n⟩ = .error .literalTooWide) ∧
    (n < 2 ^ 64 → ∃ a : Word, ScriptLine.encoding vars ⟨dest, op, .lit n⟩ = .ok (op.word, a) ∧ a.toNat = n)

/-- 30_encoding.md R71 with 40_fields.md R80 and 43_encode.md R151: every pseudo-command, on any operand that has a value `a`, runs its
expansion. The source's six names are one transaction of their command, and `td` is its result. `RT.f` is two: `td = DEC.f p`, and
`t(d+1) = ENC.f td`, which is `p` if `p` is canonical and else the canonical NaN with the sign of `p`. `FIELDS.f` is three, and its
results are the fields of `p`. The result variables' names and the single reading of the operand are the model's choice (log 4). -/
def Obligations.PseudoCommandsRunTheirExpansions : Prop :=
  ∀ (dest : Option Nat) (fresh : Nat) (x : ScriptOperand) (a : Word) (vars : HostVars) (s : State),
    x.value vars = .ok a →
    (∀ qi ∈ [(Pseudo.decodeHalf, Instr.decH), (.encodeHalf, .encH), (.decodeSingle, .decS), (.encodeSingle, .encS),
        (.decodeDouble, .decD), (.encodeDouble, .encD)],
      ∃ t, exec qi.2 { s with op := encode qi.2, a := a } = .next t ∧
        runItem fresh vars s (.pseudo dest qi.1 x) = .ok ((dest.getD fresh, t.y) :: vars, t)) ∧
    (∀ f : Fmt, ∃ t u,
      exec (Instr.of .dec f) { s with op := encode (Instr.of .dec f), a := a } = .next t ∧
      exec (Instr.of .enc f) { t with op := encode (Instr.of .enc f), a := t.y } = .next u ∧
      runItem fresh vars s (.pseudo dest (.roundTrip f) x) =
        .ok ((dest.getD fresh + 1, u.y) :: (dest.getD fresh, t.y) :: vars, u) ∧
      (canonicalPattern f (a.toNat % 2 ^ f.width) = true → u.y.toNat = a.toNat % 2 ^ f.width) ∧
      (canonicalPattern f (a.toNat % 2 ^ f.width) = false → u.y.toNat = nanPattern f (a.getLsbD (f.width - 1)))) ∧
    (∀ f : Fmt, ∃ t,
      runItem fresh vars s (.pseudo dest (.fields f) x) =
        .ok ((dest.getD fresh + 2, BitVec.ofNat 64 (fieldsOf f (a.toNat % 2 ^ f.width)).frac) ::
          (dest.getD fresh + 1, BitVec.ofNat 64 (fieldsOf f (a.toNat % 2 ^ f.width)).exp) ::
          (dest.getD fresh, BitVec.ofNat 64 (fieldsOf f (a.toNat % 2 ^ f.width)).sign.toNat) :: vars, t) ∧ t.a = a ∧ t.ill = false)
end

