-- ==== Sys2Proof/Laws/Operands.lean ====
section
/-! SUPPORT. What the operand and field functions compute, as division and remainder. -/

namespace Sys2Proof.Machine

theorem slice_lt (x hi lo : Nat) : slice x hi lo < 2 ^ (hi - lo + 1) :=
  Nat.mod_lt _ (Nat.two_pow_pos _)

/-- `a[W-1:0]` is the remainder by `2^W` (R64). -/
theorem patternOperand_eq_mod (f : Fmt) (a : Word) : patternOperand f a = a.toNat % 2 ^ f.width := by
  cases f <;> simp [patternOperand, slice, Fmt.width]

theorem patternOperand_lt (f : Fmt) (a : Word) : patternOperand f a < 2 ^ f.width := by
  rw [patternOperand_eq_mod]
  exact Nat.mod_lt _ (Nat.two_pow_pos _)

theorem nativeOperand_eq_mod (f : Fmt) (a : Word) : nativeOperand f a = a.toNat % 2 ^ f.native.width :=
  patternOperand_eq_mod _ _

theorem nativeOperand_lt (f : Fmt) (a : Word) : nativeOperand f a < 2 ^ f.native.width :=
  patternOperand_lt _ _

/-- The sign is the part of the pattern above the other `W - 1` bits. -/
theorem fieldsOf_sign {f : Fmt} {p : Nat} (h : p < 2 ^ f.width) :
    (fieldsOf f p).sign = decide (2 ^ (f.width - 1) ≤ p) := by
  have key : slice p (f.width - 1) (f.width - 1) = 1 ↔ 2 ^ (f.width - 1) ≤ p := by
    cases f <;> simp only [slice, Fmt.width, Nat.reduceSub, Nat.reduceAdd, Nat.reducePow] at h ⊢ <;> omega
  rw [Bool.eq_iff_iff, decide_eq_true_eq, ← key]
  exact beq_iff_eq

theorem fieldsOf_exp (f : Fmt) (p : Nat) : (fieldsOf f p).exp = p / 2 ^ f.fracBits % 2 ^ f.expBits := by
  cases f <;> rfl

theorem fieldsOf_frac (f : Fmt) (p : Nat) : (fieldsOf f p).frac = p % 2 ^ f.fracBits := by
  cases f <;> simp [fieldsOf, slice, Fmt.fracBits]

theorem fieldsOf_exp_lt (f : Fmt) (p : Nat) : (fieldsOf f p).exp < 2 ^ f.expBits := by
  rw [fieldsOf_exp]
  exact Nat.mod_lt _ (Nat.two_pow_pos _)

theorem fieldsOf_frac_lt (f : Fmt) (p : Nat) : (fieldsOf f p).frac < 2 ^ f.fracBits := by
  rw [fieldsOf_frac]
  exact Nat.mod_lt _ (Nat.two_pow_pos _)

/-- `W = 1 + EB + FB` (R5). -/
theorem width_eq (f : Fmt) : f.width = 1 + f.expBits + f.fracBits := by
  cases f <;> rfl

/-- `BIAS = 2^(EB-1) - 1` (R5). -/
theorem bias_eq (f : Fmt) : f.bias = 2 ^ (f.expBits - 1) - 1 := by
  cases f <;> rfl

end Sys2Proof.Machine
end

