-- ==== Sys2Proof/Laws/Ops.lean ====
section
/-! SUPPORT. What the shared operations of the codec can do: rounding, the cases of decoding, the cases of packing. -/

namespace Sys2Proof.Machine

/-! ### Rounding -/

/-- Rounding a whole number of units changes nothing. -/
@[simp] theorem rne_mul_self (q : Nat) {den : Nat} (h : 0 < den) : rne (q * den) den = q := by
  simp [rne, Nat.mul_mod_left, Nat.mul_div_cancel _ h, h]

/-- RNE answers the floor or the next integer (R13). -/
theorem rne_eq_or (num den : Nat) : rne num den = num / den ∨ rne num den = num / den + 1 := by
  unfold rne
  split
  · exact .inl rfl
  · split
    · exact .inr rfl
    · split
      · exact .inl rfl
      · exact .inr rfl

theorem div_le_rne (num den : Nat) : num / den ≤ rne num den := by
  rcases rne_eq_or num den with h | h <;> omega

theorem rne_le (num den : Nat) : rne num den ≤ num / den + 1 := by
  rcases rne_eq_or num den with h | h <;> omega

/-- The exponent of the leading bit, from its bounds (R134). -/
theorem log2_eq_of_bounds {M k : Nat} (lo : 2 ^ k ≤ M) (hi : M < 2 ^ (k + 1)) : Nat.log2 M = k := by
  have hM : M ≠ 0 := by have := Nat.two_pow_pos k; omega
  refine Nat.le_antisymm ?_ ?_
  · have := (Nat.log2_lt hM).2 hi
    omega
  · exact (Nat.le_log2 hM).2 lo

/-! ### Decoding -/

/-- Everything `Decode` can answer, by the exponent and fraction fields (R110). -/
theorem decodeValue_cases (f : Fmt) (p : Nat) :
    ((fieldsOf f p).exp = f.emaxField ∧ (fieldsOf f p).frac = 0 ∧ decodeValue f p = .inf (fieldsOf f p).sign) ∨
    ((fieldsOf f p).exp = f.emaxField ∧ (fieldsOf f p).frac ≠ 0 ∧ decodeValue f p = .nan (fieldsOf f p).sign) ∨
    ((fieldsOf f p).exp = 0 ∧ (fieldsOf f p).frac = 0 ∧ decodeValue f p = .zero (fieldsOf f p).sign) ∨
    ((fieldsOf f p).exp = 0 ∧ (fieldsOf f p).frac ≠ 0 ∧
      decodeValue f p = .fin (fieldsOf f p).sign (fieldsOf f p).frac f.minSubnormalExp) ∨
    (0 < (fieldsOf f p).exp ∧ (fieldsOf f p).exp < f.emaxField ∧
      decodeValue f p = .fin (fieldsOf f p).sign (2 ^ f.fracBits + (fieldsOf f p).frac)
        ((fieldsOf f p).exp - (f.bias : Int) - f.fracBits)) := by
  have hlt : (fieldsOf f p).exp < 2 ^ f.expBits := fieldsOf_exp_lt f p
  have hpos : 0 < f.emaxField := by cases f <;> decide
  have hem : f.emaxField = 2 ^ f.expBits - 1 := rfl
  unfold decodeValue
  by_cases h1 : (fieldsOf f p).exp = f.emaxField
  · by_cases h2 : (fieldsOf f p).frac = 0 <;> simp [h1, h2]
  · by_cases h3 : (fieldsOf f p).exp = 0
    · by_cases h2 : (fieldsOf f p).frac = 0 <;> simp [h2, h3, hpos.ne]
    · have h4 : (fieldsOf f p).exp < f.emaxField := by omega
      simp [h1, h3, h4]
      omega

/-- The class of a pattern, by the same case split (R100). -/
theorem classOf_cases (f : Fmt) (p : Nat) :
    ((fieldsOf f p).exp = f.emaxField ∧ (fieldsOf f p).frac = 0 ∧ classOf f p = .infinity) ∨
    ((fieldsOf f p).exp = f.emaxField ∧ (fieldsOf f p).frac ≠ 0 ∧ classOf f p = .nan) ∨
    ((fieldsOf f p).exp = 0 ∧ (fieldsOf f p).frac = 0 ∧ classOf f p = .zero) ∨
    ((fieldsOf f p).exp = 0 ∧ (fieldsOf f p).frac ≠ 0 ∧ classOf f p = .subnormal) ∨
    (0 < (fieldsOf f p).exp ∧ (fieldsOf f p).exp < f.emaxField ∧ classOf f p = .normal) := by
  have hlt : (fieldsOf f p).exp < 2 ^ f.expBits := fieldsOf_exp_lt f p
  have hpos : 0 < f.emaxField := by cases f <;> decide
  have hem : f.emaxField = 2 ^ f.expBits - 1 := rfl
  unfold classOf
  by_cases h1 : (fieldsOf f p).exp = f.emaxField
  · by_cases h2 : (fieldsOf f p).frac = 0 <;> simp [h1, h2]
  · by_cases h3 : (fieldsOf f p).exp = 0
    · by_cases h2 : (fieldsOf f p).frac = 0 <;> simp [h2, h3, hpos.ne]
    · have h4 : (fieldsOf f p).exp < f.emaxField := by omega
      simp [h1, h3, h4]
      omega

/-- Decoding never makes a `Fin` with a zero magnitude (R11). -/
theorem decodeValue_wellFormed (f : Fmt) (p : Nat) : (decodeValue f p).wellFormed = true := by
  rcases decodeValue_cases f p with ⟨-, -, h⟩ | ⟨-, -, h⟩ | ⟨-, -, h⟩ | ⟨-, hF, h⟩ | ⟨-, -, h⟩ <;> rw [h]
  · rfl
  · rfl
  · rfl
  · simp only [Value.wellFormed, decide_eq_true_eq]
    omega
  · have := Nat.two_pow_pos f.fracBits
    simp only [Value.wellFormed, decide_eq_true_eq]
    omega

/-! ### Packing -/

/-- Overflow, decided before rounding (R135). -/
theorem packFinite_of_overflow {f : Fmt} {s : Bool} {M : Nat} {E : Int}
    (h : (f.emaxField : Int) ≤ unbiasedExp M E + f.bias) : packFinite f s M E = infPattern f s := by
  simp [packFinite, h]

/-- A magnitude below the smallest normal (R136, R137). -/
theorem packFinite_of_small {f : Fmt} {s : Bool} {M : Nat} {E : Int} (h : unbiasedExp M E + f.bias ≤ 0) :
    packFinite f s M E = packSubnormal f s M (1 - (unbiasedExp M E + f.bias)).toNat := by
  have hpos : 0 < f.emaxField := by cases f <;> decide
  have h1 : ¬ (f.emaxField : Int) ≤ unbiasedExp M E + f.bias := by omega
  simp [packFinite, h, h1]

/-- A magnitude in the normal range (R138). -/
theorem packFinite_of_normal {f : Fmt} {s : Bool} {M : Nat} {E : Int} (lo : 0 < unbiasedExp M E + f.bias)
    (hi : unbiasedExp M E + f.bias < f.emaxField) :
    packFinite f s M E = packNormal f s M (unbiasedExp M E + f.bias).toNat := by
  simp [packFinite, not_le.2 lo, not_le.2 hi]

/-- A carry into the all-ones exponent is infinity as the same number (R138). -/
theorem packNormal_of_carry {f : Fmt} {s : Bool} {M biased : Nat}
    (h : f.emaxField * 2 ^ f.fracBits = biased * 2 ^ f.fracBits + normalFraction f M) :
    packNormal f s M biased = signPattern f s + (biased * 2 ^ f.fracBits + normalFraction f M) := by
  simp [packNormal, infPattern, h]

end Sys2Proof.Machine
end

