-- ==== Sys2Proof/Laws/PerInstr.lean ====
section
/-! SUPPORT. What holds of each command as syntax: its word is `4 * func + fmt` (30_encoding.md R63), and it is well-formed. -/

namespace Sys2Proof.Laws.CommandWord

/-- The word of a command is `4 * func + fmt` with legal fields (R63). -/
def Statement (i : Instr) : Prop :=
  (encode i).toNat = 4 * i.func.code.toNat + i.fmt.code.toNat ∧ i.wellFormed = true

theorem decH : Statement .decH := ⟨rfl, rfl⟩
theorem decS : Statement .decS := ⟨rfl, rfl⟩
theorem decD : Statement .decD := ⟨rfl, rfl⟩
theorem encH : Statement .encH := ⟨rfl, rfl⟩
theorem encS : Statement .encS := ⟨rfl, rfl⟩
theorem encD : Statement .encD := ⟨rfl, rfl⟩
theorem xsgnH : Statement .xsgnH := ⟨rfl, rfl⟩
theorem xsgnS : Statement .xsgnS := ⟨rfl, rfl⟩
theorem xsgnD : Statement .xsgnD := ⟨rfl, rfl⟩
theorem xexpH : Statement .xexpH := ⟨rfl, rfl⟩
theorem xexpS : Statement .xexpS := ⟨rfl, rfl⟩
theorem xexpD : Statement .xexpD := ⟨rfl, rfl⟩
theorem xfrcH : Statement .xfrcH := ⟨rfl, rfl⟩
theorem xfrcS : Statement .xfrcS := ⟨rfl, rfl⟩
theorem xfrcD : Statement .xfrcD := ⟨rfl, rfl⟩
theorem classH : Statement .classH := ⟨rfl, rfl⟩
theorem classS : Statement .classS := ⟨rfl, rfl⟩
theorem classD : Statement .classD := ⟨rfl, rfl⟩

end Sys2Proof.Laws.CommandWord
end

