-- ==== Sys2Proof/Laws/State.lean ====
section
/-! SUPPORT. One lemma for each port and each way of writing the ports. -/

namespace Sys2Proof.Machine

@[simp] theorem driveIll_op (b : Bool) (s : State) : (driveIll b s).op = s.op := rfl
@[simp] theorem driveIll_a (b : Bool) (s : State) : (driveIll b s).a = s.a := rfl
@[simp] theorem driveIll_y (b : Bool) (s : State) : (driveIll b s).y = s.y := rfl
@[simp] theorem driveIll_ill (b : Bool) (s : State) : (driveIll b s).ill = b := rfl

@[simp] theorem answer_op (r : Nat) (s : State) : (answer r s).op = s.op := rfl
@[simp] theorem answer_a (r : Nat) (s : State) : (answer r s).a = s.a := rfl
@[simp] theorem answer_y (r : Nat) (s : State) : (answer r s).y = BitVec.ofNat 64 r := rfl
@[simp] theorem answer_ill (r : Nat) (s : State) : (answer r s).ill = false := rfl

@[simp] theorem answerReserved_op (s : State) : (answerReserved s).op = s.op := rfl
@[simp] theorem answerReserved_a (s : State) : (answerReserved s).a = s.a := rfl
@[simp] theorem answerReserved_y (s : State) : (answerReserved s).y = 0#64 := rfl
@[simp] theorem answerReserved_ill (s : State) : (answerReserved s).ill = true := rfl

@[simp] theorem withFetchWord_op (s : State) (n w : Nat) : (s.withFetchWord n w).op = BitVec.ofNat 8 w := rfl
@[simp] theorem withFetchWord_a (s : State) (n w : Nat) : (s.withFetchWord n w).a = s.a := rfl
@[simp] theorem withFetchWord_y (s : State) (n w : Nat) : (s.withFetchWord n w).y = s.y := rfl
@[simp] theorem withFetchWord_ill (s : State) (n w : Nat) : (s.withFetchWord n w).ill = s.ill := rfl

/-- An answer replaces both outputs, so what they showed before does not matter (R29: `ill` is not sticky). -/
@[simp] theorem answer_outputs (r : Nat) (s : State) (y : Word) (ill : Bool) :
    answer r { s with y := y, ill := ill } = answer r s := rfl

@[simp] theorem answerReserved_outputs (s : State) (y : Word) (ill : Bool) :
    answerReserved { s with y := y, ill := ill } = answerReserved s := rfl

@[simp] theorem wait_io (dt : Nat) (p : Port) : (p.wait dt).io = p.io := rfl
@[simp] theorem wait_heldFor (dt : Nat) (p : Port) : (p.wait dt).heldFor = p.heldFor + dt := rfl
@[simp] theorem settle_heldFor (p : Port) : p.settle.heldFor = p.heldFor := rfl

/-- After a drive the port's inputs are the driven ones, whether or not they changed. -/
@[simp] theorem drive_inputs (op : CmdWord) (a : Word) (p : Port) :
    (p.drive op a).io.op = op ∧ (p.drive op a).io.a = a := by
  unfold Port.drive
  split
  · assumption
  · exact ⟨rfl, rfl⟩

end Sys2Proof.Machine
end

