-- ==== Sys2Proof/Laws/Step.lean ====
section
/-! SUPPORT. What one step can do, said once. -/

namespace Sys2Proof.Machine

/-- The result a command drives, as a number (R65). -/
def resultOf (i : Instr) (a : Word) : Nat :=
  match i.func with
  | .dec => decodeOut i.fmt (patternOperand i.fmt a)
  | .enc => encodeOut i.fmt (nativeOperand i.fmt a)
  | .xsgn => (fieldsOf i.fmt (patternOperand i.fmt a)).sign.toNat
  | .xexp => (fieldsOf i.fmt (patternOperand i.fmt a)).exp
  | .xfrc => (fieldsOf i.fmt (patternOperand i.fmt a)).frac
  | .cls => (classOf i.fmt (patternOperand i.fmt a)).code

/-- Every command is one answer with its result (R65, R160). -/
theorem exec_eq_answer (i : Instr) (s : State) : exec i s = .next (answer (resultOf i s.a) s) := by
  cases i <;> rfl

/-- A step runs the command of the word on `op`, or answers a reserved word; nothing else can happen (R67, R164). -/
theorem step_cases (s : State) :
    (∃ i, decode s.op = .ok i ∧ step s = .next (answer (resultOf i s.a) s)) ∨
    (∃ e, decode s.op = .error e ∧ step s = .next (answerReserved s)) := by
  unfold step
  split
  · next i h => exact .inl ⟨i, h, exec_eq_answer i s⟩
  · next e h => exact .inr ⟨e, h, rfl⟩

/-- A transaction is the step on the driven inputs. -/
theorem step_drive_eq_transact (op : CmdWord) (a : Word) (s : State) :
    step { s with op := op, a := a } = .next (transact op a s) := by
  unfold transact
  rcases step_cases { s with op := op, a := a } with ⟨i, -, h⟩ | ⟨e, -, h⟩ <;> rw [h]

/-- A transaction leaves the driven inputs on the ports. -/
@[simp] theorem transact_inputs (op : CmdWord) (a : Word) (s : State) :
    (transact op a s).op = op ∧ (transact op a s).a = a := by
  have ht := step_drive_eq_transact op a s
  rcases step_cases { s with op := op, a := a } with ⟨i, -, h⟩ | ⟨e, -, h⟩ <;>
    (rw [h] at ht; injection ht with ht; rw [← ht]; exact ⟨rfl, rfl⟩)

@[simp] theorem transactAll_nil (s : State) : transactAll [] s = ([], s) := rfl

end Sys2Proof.Machine
end

