-- ==== Sys2Proof/Laws/Ports.lean ====
section
/-! SUPPORT. What the host's actions do to the ports, one action at a time. -/

namespace Sys2Proof.Machine

/-- Waiting no time changes nothing. -/
@[simp] theorem wait_zero (p : Port) : p.wait 0 = p := rfl

@[simp] theorem map_wait_zero (o : Option Port) : o.map (Port.wait 0) = o := by
  cases o <;> rfl

/-- Waiting twice is waiting for the sum. -/
@[simp] theorem wait_wait (d e : Nat) (p : Port) : (p.wait d).wait e = p.wait (d + e) := by
  simp [Port.wait, Nat.add_assoc]

/-- A drive never leaves the stable time longer than it was. -/
theorem drive_heldFor_le (op : CmdWord) (a : Word) (p : Port) : (p.drive op a).heldFor ≤ p.heldFor := by
  unfold Port.drive
  split
  · exact Nat.le_refl _
  · exact Nat.zero_le _

/-- An action that leaves instance `k` alone keeps its ports; only the stable time may grow (R168). -/
theorem act_leaves_port (x : System) (k : Nat) (act : HostAction) (h : act.leaves k = true) :
    (x.act act).2.ports[k]? = (x.ports[k]?).map (Port.wait act.duration) := by
  cases act with
  | drive j op a =>
    have hj : j ≠ k := by simpa [HostAction.leaves] using h
    simp [System.act, HostAction.duration, hj]
  | wait dt => simp [System.act, HostAction.duration]
  | sample j =>
    have hj : j ≠ k := by simpa [HostAction.leaves] using h
    simp only [System.act, System.sample, HostAction.duration]
    split
    · simp
    · split
      · simp [hj]
      · simp

/-- What a settled instance answers (R182). -/
theorem sample_of_settled {x : System} {k : Nat} {p : Port} (hp : x.ports[k]? = some p) (h : Config.tProp ≤ p.heldFor) :
    x.sample k = (some p.outputs, { x with ports := x.ports.set k p.settle }) := by
  simp [System.sample, hp, Port.settled, h]

/-- No action changes how many instances there are. -/
theorem act_length (x : System) (act : HostAction) : (x.act act).2.ports.length = x.ports.length := by
  cases act with
  | drive j op a => simp [System.act]
  | wait dt => simp [System.act]
  | sample j =>
    simp only [System.act, System.sample]
    split
    · rfl
    · split
      · simp
      · rfl

end Sys2Proof.Machine
end

