-- ==== Sys2Proof/Laws/Script.lean ====
section
/-! SUPPORT. What a line and an item of a script do. -/

namespace Sys2Proof.Machine

/-- A word always fits a literal (R70). -/
@[simp] theorem value_lit_toNat (vars : HostVars) (a : Word) : (ScriptOperand.lit a.toNat).value vars = .ok a := by
  simp [ScriptOperand.value, a.isLt]

/-- The newest result under a name is the variable's value. -/
@[simp] theorem value_var_newest (k : Nat) (v : Word) (vars : HostVars) :
    (ScriptOperand.var k).value ((k, v) :: vars) = .ok v := by
  simp [ScriptOperand.value]

@[simp] theorem runScript_nil (vars : HostVars) (s : State) : runScript [] vars s = .ok (vars, s) := rfl

/-- A line whose operand has a value is one transaction; its result is the value of the line's variable (D20). -/
theorem runScript_cons_of_value {l : ScriptLine} {rest : List ScriptLine} {vars : HostVars} {s : State} {a : Word}
    (h : l.operand.value vars = .ok a) :
    runScript (l :: rest) vars s =
      runScript rest (assign l.dest (transact l.op.word a s).y vars) (transact l.op.word a s) := by
  simp [runScript, ScriptLine.encoding, h]

/-- A line whose operand has no value ends the script. -/
theorem runScript_cons_of_error {l : ScriptLine} {rest : List ScriptLine} {vars : HostVars} {s : State} {e : AsmError}
    (h : l.operand.value vars = .error e) : runScript (l :: rest) vars s = .error e := by
  simp [runScript, ScriptLine.encoding, h]

/-- A pseudo-command on an operand with a value is its expansion on that value (R71). -/
theorem runItem_pseudo_of_value {fresh : Nat} {vars : HostVars} {s : State} {dest : Option Nat} {q : Pseudo}
    {x : ScriptOperand} {a : Word} (h : x.value vars = .ok a) :
    runItem fresh vars s (.pseudo dest q x) = runScript (q.expand (dest.getD fresh) (.lit a.toNat)) vars s := by
  simp [runItem, h]

end Sys2Proof.Machine
end

