-- ==== Sys2Proof/Tests/Slice0.lean ====
section
/-! SUPPORT. The model's own tests: the checks of WellFormed, each command's word as the spec writes it, worked examples of the
spec (95_test_vectors.md, named in each comment), and for each statement with hypotheses concrete data that meets them. -/

namespace Sys2Proof.Tests

open Sys2Proof Sys2Proof.Machine

/-- Ports with the inputs `op` and `a`, and outputs left over from an earlier transaction. -/
def ports (op a : Nat) : State := { op := BitVec.ofNat 8 op, a := BitVec.ofNat 64 a, y := 0x5A5A#64, ill := true }

/-- What one transaction answers. -/
def answerOf (op a : Nat) : Option (Nat × Bool) :=
  match step (ports op a) with
  | .next t => some (t.y.toNat, t.ill)
  | .fault _ => none
  | .refused _ => none

/-! ### WellFormed refuses each ill-formed word -/

theorem test_wellFormed_refuses_rsv : CmdFields.wellFormed ⟨0b001#3, 0b000#3, 0b00#2⟩ = false := by decide
theorem test_wellFormed_refuses_func6 : CmdFields.wellFormed ⟨0b000#3, 0b110#3, 0b00#2⟩ = false := by decide
theorem test_wellFormed_refuses_func7 : CmdFields.wellFormed ⟨0b000#3, 0b111#3, 0b00#2⟩ = false := by decide
theorem test_wellFormed_refuses_fmt : CmdFields.wellFormed ⟨0b000#3, 0b101#3, 0b11#2⟩ = false := by decide
theorem test_wellFormed_accepts : CmdFields.wellFormed ⟨0b000#3, 0b101#3, 0b10#2⟩ = true := by decide

/-! ### Decoding, by the words of 30_encoding.md R60 to R63 written as `rsv func fmt` -/

theorem test_decode_decH : decode (0b000#3 ++ 0b000#3 ++ 0b00#2) = .ok .decH := rfl
theorem test_decode_decS : decode (0b000#3 ++ 0b000#3 ++ 0b01#2) = .ok .decS := rfl
theorem test_decode_decD : decode (0b000#3 ++ 0b000#3 ++ 0b10#2) = .ok .decD := rfl
theorem test_decode_encH : decode (0b000#3 ++ 0b001#3 ++ 0b00#2) = .ok .encH := rfl
theorem test_decode_encS : decode (0b000#3 ++ 0b001#3 ++ 0b01#2) = .ok .encS := rfl
theorem test_decode_encD : decode (0b000#3 ++ 0b001#3 ++ 0b10#2) = .ok .encD := rfl
theorem test_decode_xsgnH : decode (0b000#3 ++ 0b010#3 ++ 0b00#2) = .ok .xsgnH := rfl
theorem test_decode_xsgnS : decode (0b000#3 ++ 0b010#3 ++ 0b01#2) = .ok .xsgnS := rfl
theorem test_decode_xsgnD : decode (0b000#3 ++ 0b010#3 ++ 0b10#2) = .ok .xsgnD := rfl
theorem test_decode_xexpH : decode (0b000#3 ++ 0b011#3 ++ 0b00#2) = .ok .xexpH := rfl
theorem test_decode_xexpS : decode (0b000#3 ++ 0b011#3 ++ 0b01#2) = .ok .xexpS := rfl
theorem test_decode_xexpD : decode (0b000#3 ++ 0b011#3 ++ 0b10#2) = .ok .xexpD := rfl
theorem test_decode_xfrcH : decode (0b000#3 ++ 0b100#3 ++ 0b00#2) = .ok .xfrcH := rfl
theorem test_decode_xfrcS : decode (0b000#3 ++ 0b100#3 ++ 0b01#2) = .ok .xfrcS := rfl
theorem test_decode_xfrcD : decode (0b000#3 ++ 0b100#3 ++ 0b10#2) = .ok .xfrcD := rfl
theorem test_decode_classH : decode (0b000#3 ++ 0b101#3 ++ 0b00#2) = .ok .classH := rfl
theorem test_decode_classS : decode (0b000#3 ++ 0b101#3 ++ 0b01#2) = .ok .classS := rfl
theorem test_decode_classD : decode (0b000#3 ++ 0b101#3 ++ 0b10#2) = .ok .classD := rfl

theorem test_decode_reserved_rsv : decode 0x20#8 = .error .reservedBits := rfl
theorem test_decode_reserved_fmt : decode 0x17#8 = .error .reservedFormat := rfl
theorem test_decode_reserved_func : decode 0x18#8 = .error .reservedFunction := rfl
theorem test_decodeTableWord : decodeTableWord 8 0x16 = some .classD ∧ decodeTableWord 8 0x1F = none := ⟨rfl, rfl⟩
theorem test_withFetchWord_op : ((ports 0xFF 1).withFetchWord 8 0x16).op = encode .classD := rfl

/-! ### Worked examples and vectors of 95_test_vectors.md -/

/-- V3.3.7 -/
theorem test_decH_1 : answerOf 0x00 0x03FF = some (0x387FC000, false) := by decide
/-- V3.3.18 -/
theorem test_decH_2 : answerOf 0x00 0xFFFFFFFFFFFF3C00 = some (0x3F800000, false) := by decide
/-- V3.3.27 -/
theorem test_decS_1 : answerOf 0x01 0x7F800001 = some (0x7FC00000, false) := by decide
/-- V3.3.22 -/
theorem test_decS_2 : answerOf 0x01 0x007FFFFF = some (0x007FFFFF, false) := by decide
/-- V3.3.36 -/
theorem test_decD_1 : answerOf 0x02 0xFFFFFFFFFFFFFFFF = some (0xFFF8000000000000, false) := by decide
/-- V3.3.31 -/
theorem test_decD_2 : answerOf 0x02 0x0000000000000001 = some (0x0000000000000001, false) := by decide
/-- V3.4.31 -/
theorem test_encH_1 : answerOf 0x04 0x387FE000 = some (0x0400, false) := by decide
/-- V3.4.22 -/
theorem test_encH_2 : answerOf 0x04 0x33400000 = some (0x0000, false) := by decide
/-- V3.4.41 -/
theorem test_encS_1 : answerOf 0x05 0xFF800001 = some (0xFFC00000, false) := by decide
/-- V3.4.46 -/
theorem test_encS_2 : answerOf 0x05 0xFFFFFFFF3F800000 = some (0x3F800000, false) := by decide
/-- V3.4.49 -/
theorem test_encD_1 : answerOf 0x06 0xFFF0000000000001 = some (0xFFF8000000000000, false) := by decide
/-- V3.4.51 -/
theorem test_encD_2 : answerOf 0x06 0x0000000000000001 = some (0x0000000000000001, false) := by decide
/-- V3.1.5 -/
theorem test_xsgnH_1 : answerOf 0x08 0xFFFF0001 = some (0x0, false) := by decide
/-- V3.1.4 -/
theorem test_xsgnH_2 : answerOf 0x08 0xFE00 = some (0x1, false) := by decide
/-- V3.1.6 -/
theorem test_xsgnS_1 : answerOf 0x09 0x80000000 = some (0x1, false) := by decide
/-- V3.1.7 -/
theorem test_xsgnS_2 : answerOf 0x09 0x7FFFFFFF = some (0x0, false) := by decide
/-- V3.1.9 -/
theorem test_xsgnD_1 : answerOf 0x0A 0xFFF0000000000000 = some (0x1, false) := by decide
/-- V3.1.10 -/
theorem test_xsgnD_2 : answerOf 0x0A 0x4037000000000000 = some (0x0, false) := by decide
/-- V3.1.11 -/
theorem test_xexpH_1 : answerOf 0x0C 0x7BFF = some (0x1E, false) := by decide
/-- V3.1.16 -/
theorem test_xexpH_2 : answerOf 0x0C 0xFFFF = some (0x1F, false) := by decide
/-- V3.1.17 -/
theorem test_xexpS_1 : answerOf 0x0D 0x40490FDB = some (0x80, false) := by decide
/-- V3.1.19 -/
theorem test_xexpS_2 : answerOf 0x0D 0x007FFFFF = some (0x0, false) := by decide
/-- V3.1.21 -/
theorem test_xexpD_1 : answerOf 0x0E 0xFFF0000000000000 = some (0x7FF, false) := by decide
/-- V3.1.20 -/
theorem test_xexpD_2 : answerOf 0x0E 0x4037000000000000 = some (0x403, false) := by decide
/-- V3.1.25 -/
theorem test_xfrcH_1 : answerOf 0x10 0x7E00 = some (0x200, false) := by decide
/-- V3.1.27 -/
theorem test_xfrcH_2 : answerOf 0x10 0xFFFF0001 = some (0x1, false) := by decide
/-- V3.1.28 -/
theorem test_xfrcS_1 : answerOf 0x11 0x40490FDB = some (0x490FDB, false) := by decide
/-- V3.1.29 -/
theorem test_xfrcS_2 : answerOf 0x11 0x7F800001 = some (0x1, false) := by decide
/-- V3.1.31 -/
theorem test_xfrcD_1 : answerOf 0x12 0x4037000000000000 = some (0x7000000000000, false) := by decide
/-- V3.1.33 -/
theorem test_xfrcD_2 : answerOf 0x12 0xFFF8000000000000 = some (0x8000000000000, false) := by decide
/-- V3.2.4 -/
theorem test_classH_1 : answerOf 0x14 0x03FF = some (0x1, false) := by decide
/-- V3.2.9 -/
theorem test_classH_2 : answerOf 0x14 0x7C01 = some (0x4, false) := by decide
/-- V3.2.15 -/
theorem test_classS_1 : answerOf 0x15 0x807FFFFF = some (0x1, false) := by decide
/-- V3.2.20 -/
theorem test_classS_2 : answerOf 0x15 0x7F800001 = some (0x4, false) := by decide
/-- V3.2.27 -/
theorem test_classD_1 : answerOf 0x16 0x0010000000000000 = some (0x2, false) := by decide
/-- V3.2.30 -/
theorem test_classD_2 : answerOf 0x16 0xFFF0000000000000 = some (0x3, false) := by decide

/-- V3.5.1 -/
theorem test_reserved_fmt : answerOf 0x03 0x1234 = some (0, true) := by decide
/-- V3.5.9 -/
theorem test_reserved_all_ones : answerOf 0xFF 0x1234 = some (0, true) := by decide

/-- P5, line 5: the reserved word on the line before leaves nothing behind. -/
theorem test_reserved_word_leaves_nothing :
    (transactAll [(0xFF#8, 0x3C00#64), (0x00#8, 0x0001#64)] State.reset).1 =
      [{ y := 0#64, ill := true }, { y := 0x33800000#64, ill := false }] := by decide +kernel

/-! ### Scripts (30_encoding.md R70, R71) -/

/-- P1, line 1. -/
theorem test_assemble_literal : (assemble [] "DEC.H 0x3C00".toList).toOption = some (0x00#8, 0x3C00#64) := by decide
/-- P1, line 2. -/
theorem test_assemble_variable : (assemble [(0, 0x3F800000#64)] "t1 = ENC.H t0".toList).toOption = some (0x04#8, 0x3F800000#64) := by decide
/-- V3.5.9 -/
theorem test_assemble_raw : (assemble [] ".op 0xFF 0x1234".toList).toOption = some (0xFF#8, 0x1234#64) := by decide
/-- P1, line 2. -/
theorem test_showEncoding : String.ofList (showEncoding 0x04#8 0x3F800000#64) = "op=0x04 a=0x000000003F800000" := by decide
/-- 42_decode.md R115, the example. -/
theorem test_showTransaction :
    String.ofList (showTransaction .decH 0x3C00#64 0x3F800000#64) = "DEC.H 0x0000000000003C00 -> 0x3F800000" := by decide
theorem test_read_pseudo : (readItem "RT.H 60".toList).toOption = some (.pseudo none (.roundTrip .h) (.lit 60)) := by decide

/-- P3, lines 1 to 3, as one pseudo-command whose first result takes the operand's name. -/
theorem test_runItem_fields :
    ((runItem 9 [(0, 0x4037000000000000#64)] State.reset (.pseudo (some 0) (.fields .d) (.var 0))).toOption.map (·.1)) =
      some [(2, 0x7000000000000#64), (1, 0x403#64), (0, 0x0#64), (0, 0x4037000000000000#64)] := by decide
/-- V1.8 -/
theorem test_runItem_roundTrip :
    ((runItem 9 [] State.reset (.pseudo none (.roundTrip .h) (.lit 1))).toOption.map (·.1)) =
      some [(10, 0x0001#64), (9, 0x33800000#64)] := by decide

/-! ### The hypotheses of the statements can be met -/

theorem witness_EveryStepSettlesTheOutputs : ∃ t, step (ports 0x04 0x3F800000) = .next t := ⟨_, rfl⟩

theorem witness_SettledPortsAreAFixedPoint :
    Settled { op := 0x04#8, a := 0x3F800000#64, y := 0x3C00#64, ill := false } := by decide

theorem witness_StepRunsTheCommandOnOp : decode (ports 0x16 0).op = .ok .classD := rfl

theorem witness_ReservedWords_bits : 0x20 ≤ (ports 0x20 7).op.toNat ∧ 0x20 ≤ (ports 0xFF 7).op.toNat := by decide
theorem witness_ReservedWords_fmt : (ports 0x03 7).op.toNat % 4 = 3 ∧ (ports 0x17 7).op.toNat % 4 = 3 := by decide
theorem witness_ReservedWords_func :
    (0x18 ≤ (ports 0x18 7).op.toNat ∧ (ports 0x18 7).op.toNat ≤ 0x1F) ∧
    (0x18 ≤ (ports 0x1F 7).op.toNat ∧ (ports 0x1F 7).op.toNat ≤ 0x1F) := by decide
theorem witness_ReservedWords_legal :
    ¬ (0x20 ≤ (ports 0x16 7).op.toNat ∨ (ports 0x16 7).op.toNat % 4 = 3 ∨
      (0x18 ≤ (ports 0x16 7).op.toNat ∧ (ports 0x16 7).op.toNat ≤ 0x1F)) := by decide

theorem witness_DecodeAndEncodeAgree : Instr.wellFormed .classD = true ∧ decode 0x16#8 = .ok .classD := ⟨rfl, rfl⟩
theorem witness_OpcodeTableIsTheDecoder :
    decode 0x16#8 = .ok .classD ∧ ∃ r ∈ opcodeTable, 0x16#8 &&& r.mask = r.bits ∧ r.instr = .classD := by
  exact ⟨rfl, by decide⟩

theorem witness_OutputsDependOnlyOnTheInputs :
    (ports 0x04 1).op = ({ ports 0x04 1 with y := 0#64, ill := false } : State).op ∧
    (ports 0x04 1).a = ({ ports 0x04 1 with y := 0#64, ill := false } : State).a := ⟨rfl, rfl⟩

theorem witness_BitsAboveTheOperandAreIgnored :
    (ports 0x00 0x3C00).a.toNat % 2 ^ operandWidth .decH = (0xFFFFFFFFFFFF3C00#64).toNat % 2 ^ operandWidth .decH ∧
    (ports 0x04 0x3F800000).a.toNat % 2 ^ operandWidth .encH =
      (0xDEADBEEF3F800000#64).toNat % 2 ^ operandWidth .encH := by decide

theorem witness_ClassAgreesWithTheValue :
    classOf .h 0x8000 = .zero ∧ classOf .h 0x03FF = .subnormal ∧ classOf .h 0x0400 = .normal ∧
    classOf .h 0x7BFF = .normal ∧ classOf .h 0xFC00 = .infinity ∧ classOf .h 0x7C01 = .nan ∧
    0xFC00 < 2 ^ Fmt.width .h := by decide

/-- The five cases of binary16 at the ends of their ranges: infinity, NaN, zero, subnormals 1 and 1023, normals 1 and 30. -/
theorem witness_DecodedValuesFollowTheFormulas :
    (31 < 2 ^ Fmt.expBits .h ∧ 0 < 2 ^ Fmt.fracBits .h ∧ 31 = Fmt.emaxField .h) ∧
    (1 < 2 ^ Fmt.fracBits .h ∧ 1 ≠ 0) ∧ (0 < 2 ^ Fmt.expBits .h ∧ 1023 < 2 ^ Fmt.fracBits .h ∧ 1023 ≠ 0) ∧
    (0 < 1 ∧ 1 < Fmt.emaxField .h) ∧ (0 < 30 ∧ 30 < Fmt.emaxField .h) := by decide

theorem witness_FiniteRangeOfAFormat :
    0x7BFF < 2 ^ Fmt.width .h ∧ ∃ v, (decodeValue .h 0x7BFF).magnitude? = some v := ⟨by decide, _, rfl⟩

theorem witness_DecOfNaNIsTheCanonicalQuietNaN :
    decodeValue .h ((ports 0x00 0x7C01).a.toNat % 2 ^ Fmt.width .h) = .nan false ∧
    decodeValue .s ((ports 0x01 0xFFFFFFFF).a.toNat % 2 ^ Fmt.width .s) = .nan true ∧
    decodeValue .d ((ports 0x02 0x7FF0000000000001).a.toNat % 2 ^ Fmt.width .d) = .nan false := by decide

theorem witness_RoundingIsHalfToEven : 0 < 2 := by decide

theorem witness_UnbiasedExponentBracketsTheValue :
    0 < 3 ∧ ((2 : ℚ) ^ (-1 : ℤ) ≤ (3 : ℕ) * 2 ^ (-2 : ℤ) ∧ ((3 : ℕ) : ℚ) * 2 ^ (-2 : ℤ) < 2 ^ ((-1 : ℤ) + 1)) ∧
    (-1 : ℤ) = unbiasedExp 3 (-2) := by
  refine ⟨by decide, ⟨?_, ?_⟩, by decide⟩ <;> norm_num [zpow_neg]

theorem witness_PackingFollowsTheRationalAlgorithm :
    0 < 1 ∧ (2 : ℚ) ^ (0 : ℤ) ≤ ((1 : ℕ) : ℚ) * 2 ^ (0 : ℤ) ∧ ((1 : ℕ) : ℚ) * 2 ^ (0 : ℤ) < 2 ^ ((0 : ℤ) + 1) := by
  norm_num

/-- `0.75 * 2^-24` lies below the smallest subnormal of binary16, `2^-24` does not (90_conflicts.md C1). -/
theorem witness_BelowTheSmallestSubnormalFlushes :
    ((3 : ℕ) : ℚ) * 2 ^ (-26 : ℤ) < 2 ^ (1 - (Fmt.bias .h : ℤ) - Fmt.fracBits .h) ∧
    ¬ (((1 : ℕ) : ℚ) * 2 ^ (-24 : ℤ) < 2 ^ (1 - (Fmt.bias .h : ℤ) - Fmt.fracBits .h)) := by
  norm_num [Fmt.bias, Fmt.fracBits, zpow_neg]

theorem witness_EncodeAfterDecodeIsTheIdentity :
    canonicalPattern .h ((ports 0x00 0x7E00).a.toNat % 2 ^ Fmt.width .h) = true ∧
    canonicalPattern .h ((ports 0x00 0x7C01).a.toNat % 2 ^ Fmt.width .h) = false := by decide

theorem witness_DecodeAfterEncodeAfterDecode :
    classOf .h ((ports 0x00 0x7BFF).a.toNat % 2 ^ Fmt.width .h) ≠ .nan := by decide

theorem witness_NaNRoundTripIsQuietWithItsSign :
    classOf .h ((ports 0x00 0xFC01).a.toNat % 2 ^ Fmt.width .h) = .nan := by decide

theorem witness_SignOfZeroSurvives :
    (ports 0x00 0x8000).a.toNat % 2 ^ Fmt.width .h = 2 ^ (Fmt.width .h - 1) := by decide

theorem witness_SmallestSubnormalBoundary_one : (ports 0x00 0x10001).a.toNat % 2 ^ Fmt.width .h = 1 := by decide
theorem witness_SmallestSubnormalBoundary_below :
    (ports 0x04 0x337FFFFF).a.toNat % 2 ^ 32 = 0x337FFFFF ∧ (ports 0x04 0xB37FFFFF).a.toNat % 2 ^ 32 = 0xB37FFFFF := by decide
theorem witness_SmallestSubnormalBoundary_value : ∃ v, (decodeValue (Fmt.native .s) 1).magnitude? = some v :=
  ⟨_, rfl⟩

theorem witness_HostComparisonDetectsInexactEncH :
    classOf .s ((ports 0x04 0x3F801000).a.toNat % 2 ^ 32) ≠ .nan := by decide

theorem witness_IllegalAnswersComeFromReservedWordsAlone :
    ¬ LegalWord 0xFF#8 ∧ LegalRun [(0x00#8, 0x3C00#64), (0x16#8, 7#64)] := by
  refine ⟨by decide, ?_⟩
  intro x hx
  fin_cases hx <;> decide

theorem tProp_pos : 0 < Config.tProp := Nat.succ_pos _
theorem powerUp_length : System.powerUp.ports.length = Config.nInst := List.length_replicate

theorem witness_SampleAfterSettlingIsStep :
    0 < System.powerUp.ports.length ∧ (∀ act ∈ [HostAction.wait Config.tProp], act.leaves 0 = true) ∧
    Config.tProp ≤ totalDuration [.wait Config.tProp] := by
  refine ⟨?_, ?_, Nat.le_refl _⟩
  · rw [powerUp_length]
    exact Nat.succ_pos _
  · intro act h
    rw [List.mem_singleton.1 h]
    rfl

theorem witness_PowerUpOutputsFollowTheInputs : 0 < System.powerUp.ports.length ∧ Config.tProp ≤ Config.tProp :=
  ⟨witness_SampleAfterSettlingIsStep.1, Nat.le_refl _⟩

theorem witness_EarlySampleIsAFreeDraw :
    ∃ p, ([⟨ports 0x00 1, 0⟩] : List Port)[0]? = some p ∧ p.heldFor < Config.tProp :=
  ⟨_, rfl, tProp_pos⟩

theorem witness_InstancesShareNothing :
    ∀ act ∈ [HostAction.drive 1 0x04#8 7#64, .wait 3, .sample 2], act.leaves 0 = true := by decide

theorem witness_ReadingSettledOutputsHasNoSideEffect :
    ∃ p, ([⟨ports 0x00 1, Config.tProp⟩] : List Port)[0]? = some p ∧ ReadyPort p :=
  ⟨_, rfl, Nat.le_refl _⟩

theorem witness_LiteralsAreZeroExtendedOrRejected : 2 ^ 64 ≤ 0x10000000000000000 ∧ 0xFFFFFFFFFFFFFFFF < 2 ^ 64 := by decide

/-- A literal and a host variable with a value, the second one a result's own name; a canonical and a non-canonical pattern. -/
theorem witness_PseudoCommandsRunTheirExpansions :
    (ScriptOperand.lit 0x7C01).value [] = .ok 0x7C01#64 ∧ (ScriptOperand.var 0).value [(0, 0x7BFF#64)] = .ok 0x7BFF#64 ∧
    canonicalPattern .h ((0x7BFF#64).toNat % 2 ^ Fmt.width .h) = true ∧
    canonicalPattern .h ((0x7C01#64).toNat % 2 ^ Fmt.width .h) = false := by
  exact ⟨rfl, rfl, by decide, by decide⟩

end Sys2Proof.Tests
end

section
/-! SUPPORT. Rounding is round half to even (00_scope.md R13): the floor and the remainder of the rational `num / den` are the
quotient and the remainder of the numbers, so the machine and R13 make the same case split. -/

namespace Sys2Proof.Machine

/-- `r = q - floor(q)` of R13 is the remainder of the division over `den`. -/
theorem natCast_div_sub_floor (num den : Nat) :
    (num : ℚ) / den - ⌊(num : ℚ) / den⌋ = (num % den : Nat) / den := by
  rw [Int.self_sub_floor, Int.fract_div_natCast_eq_div_natCast_mod]

theorem natCast_div_lt_half_iff (r : Nat) {den : Nat} (h : 0 < den) : (r : ℚ) / den < 1 / 2 ↔ 2 * r < den := by
  rw [div_lt_div_iff₀ (by exact_mod_cast h) two_pos, one_mul, mul_comm]
  norm_cast

theorem half_lt_natCast_div_iff (r : Nat) {den : Nat} (h : 0 < den) : 1 / 2 < (r : ℚ) / den ↔ den < 2 * r := by
  rw [div_lt_div_iff₀ two_pos (by exact_mod_cast h), one_mul, mul_comm]
  norm_cast

/-- R13 on a quotient of numbers, with the remainder compared with half of `den`. -/
theorem rneRat_natCast_div (num : Nat) {den : Nat} (h : 0 < den) :
    rneRat ((num : ℚ) / den) =
      if 2 * (num % den) < den then (num / den : ℤ)
      else if den < 2 * (num % den) then (num / den : ℤ) + 1
      else if (num / den : ℤ) % 2 = 0 then (num / den : ℤ) else (num / den : ℤ) + 1 := by
  simp only [rneRat, natCast_div_sub_floor, natCast_div_lt_half_iff _ h, half_lt_natCast_div_iff _ h]
  rw [Rat.floor_natCast_div_natCast]

/-- Settles O26: both sides split on the remainder against half of `den`, and on the parity of the same quotient. -/
theorem roundingIsHalfToEven : Obligations.RoundingIsHalfToEven := by
  intro num den h
  rw [rneRat_natCast_div num h, rne]
  have parity : (num / den : ℤ) % 2 = 0 ↔ num / den % 2 = 0 := by norm_cast
  simp only [parity]
  split_ifs <;> norm_cast

end Sys2Proof.Machine
end

section
/-! SUPPORT. The step as an equation per outcome of the decoder, and R32: both equations write the two outputs from `op` and
`a` alone. -/

namespace Sys2Proof.Machine

/-- R21 on a legal word. -/
theorem step_of_decode_ok {s : State} {i : Instr} (h : decode s.op = .ok i) :
    step s = .next (answer (resultOf i s.a) s) := by
  simp only [step, h, exec_eq_answer]

/-- R67 on a reserved word. -/
theorem step_of_decode_error {s : State} {e : DecodeError} (h : decode s.op = .error e) :
    step s = .next (answerReserved s) := by
  simp only [step, h]

/-- Settles O10: the shared word decodes the same way in both states, and each answer reads at most the shared operand. -/
theorem outputsDependOnlyOnTheInputs : Obligations.OutputsDependOnlyOnTheInputs := by
  intro s u hop ha
  cases hs : decode s.op with
  | ok i =>
    have hu : decode u.op = .ok i := hop ▸ hs
    exact ⟨_, _, step_of_decode_ok hs, step_of_decode_ok hu, by simp [ha], by simp⟩
  | error e =>
    have hu : decode u.op = .error e := hop ▸ hs
    exact ⟨_, _, step_of_decode_error hs, step_of_decode_error hu, by simp, by simp⟩

end Sys2Proof.Machine
end

section
/-! SUPPORT. The command word: its three fields (R60), the codes of the fields (R61, R62), and the decoder. A word is a command
exactly when it is that command's word (R69), and reserved exactly when one of its fields is (R67). -/

namespace Sys2Proof

open Sys2Proof.Machine

/-! ### A word is its three fields -/

theorem splitWord_packWord (c : CmdFields) : splitWord (packWord c) = c := by
  obtain ⟨rsv, func, fmt⟩ := c
  rw [splitWord, packWord, CmdFields.mk.injEq]
  refine ⟨?_, ?_, ?_⟩ <;> ext <;> grind

theorem packWord_splitWord (op : CmdWord) : packWord (splitWord op) = op := by
  rw [packWord, splitWord]
  ext
  grind

theorem splitWord_rsv_toNat (op : CmdWord) : (splitWord op).rsv.toNat = slice op.toNat 7 5 := by
  simp [splitWord, slice, Nat.shiftRight_eq_div_pow]

theorem splitWord_func_toNat (op : CmdWord) : (splitWord op).func.toNat = slice op.toNat 4 2 := by
  simp [splitWord, slice, Nat.shiftRight_eq_div_pow]

theorem splitWord_fmt_toNat (op : CmdWord) : (splitWord op).fmt.toNat = slice op.toNat 1 0 := by
  simp [splitWord, slice]

/-! ### The codes of the fields -/

theorem rsvOk_iff (c : CmdFields) : c.rsvOk = true ↔ c.rsv.toNat = 0 := by
  rw [CmdFields.rsvOk, beq_iff_eq, ← BitVec.toNat_inj]
  rfl

theorem funcOfCode_eq_some_iff (c : BitVec 3) (g : Func) : funcOfCode c = some g ↔ c = g.code := by
  cases g <;> revert c <;> decide

theorem fmtOfCode_eq_some_iff (c : BitVec 2) (f : Fmt) : fmtOfCode c = some f ↔ c = f.code := by
  cases f <;> revert c <;> decide

theorem funcOfCode_eq_none_iff (c : BitVec 3) : funcOfCode c = none ↔ 6 ≤ c.toNat := by
  revert c
  decide

theorem fmtOfCode_eq_none_iff (c : BitVec 2) : fmtOfCode c = none ↔ c.toNat = 3 := by
  revert c
  decide

@[simp] theorem of_func_fmt (i : Instr) : Instr.of i.func i.fmt = i := by
  cases i <;> rfl

@[simp] theorem func_of (g : Func) (f : Fmt) : (Instr.of g f).func = g := by
  cases g <;> cases f <;> rfl

@[simp] theorem fmt_of (g : Func) (f : Fmt) : (Instr.of g f).fmt = f := by
  cases g <;> cases f <;> rfl

/-- R63: the 18 commands are the pairs of a function and a format. -/
theorem of_eq_iff (g : Func) (f : Fmt) (i : Instr) : Instr.of g f = i ↔ f = i.fmt ∧ g = i.func := by
  constructor
  · rintro rfl
    simp
  · rintro ⟨rfl, rfl⟩
    simp

/-! ### The decoder -/

theorem eq_fields_iff (c : CmdFields) (i : Instr) :
    c = i.fields ↔ c.rsvOk = true ∧ fmtOfCode c.fmt = some i.fmt ∧ funcOfCode c.func = some i.func := by
  rw [fmtOfCode_eq_some_iff, funcOfCode_eq_some_iff, CmdFields.rsvOk, beq_iff_eq, and_comm (a := c.fmt = _)]
  cases c
  rw [Instr.fields, CmdFields.mk.injEq]

/-- R69 on the fields: a word is a command exactly when it has that command's fields. -/
theorem decode_eq_ok_iff_fields (op : CmdWord) (i : Instr) : decode op = .ok i ↔ splitWord op = i.fields := by
  rw [eq_fields_iff, decode]
  by_cases hrsv : (splitWord op).rsvOk = true
  · cases hfmt : fmtOfCode (splitWord op).fmt <;> cases hfunc : funcOfCode (splitWord op).func <;>
      simp [hrsv, of_eq_iff]
  · simp [hrsv]

/-- R69: a word is a command exactly when it is that command's word. -/
theorem decode_eq_ok_iff (op : CmdWord) (i : Instr) : decode op = .ok i ↔ op = encode i := by
  rw [decode_eq_ok_iff_fields, encode]
  constructor
  · intro h
    rw [← h, packWord_splitWord]
  · intro h
    rw [h, splitWord_packWord]

@[simp] theorem decode_encode (i : Instr) : decode (encode i) = .ok i :=
  (decode_eq_ok_iff _ _).2 rfl

/-- Settles O8: both halves read the decoder's equivalence with the command's word. -/
theorem decodeAndEncodeAgree : Obligations.DecodeAndEncodeAgree :=
  ⟨fun i _ => decode_encode i, fun op i => (decode_eq_ok_iff op i).1⟩

/-! ### The reserved words -/

/-- The decoder rejects a word when one of its three fields is reserved (R60 to R62). -/
theorem exists_decode_eq_error_iff (op : CmdWord) :
    (∃ e, decode op = .error e) ↔
      (splitWord op).rsv.toNat ≠ 0 ∨ (splitWord op).fmt.toNat = 3 ∨ 6 ≤ (splitWord op).func.toNat := by
  rw [ne_eq, ← rsvOk_iff, ← fmtOfCode_eq_none_iff, ← funcOfCode_eq_none_iff, decode]
  by_cases hrsv : (splitWord op).rsvOk = true
  · cases hfmt : fmtOfCode (splitWord op).fmt <;> cases hfunc : funcOfCode (splitWord op).func <;>
      simp [hrsv]
  · simp [hrsv]

theorem isReserved_iff_ranges (op : CmdWord) :
    isReserved op = true ↔ 0x20 ≤ op.toNat ∨ op.toNat % 4 = 3 ∨ (0x18 ≤ op.toNat ∧ op.toNat ≤ 0x1F) := by
  simp [isReserved, slice, or_assoc]

/-- The ranges of R67 are R68's conditions on the slices of `op`. -/
theorem isReserved_iff_slices (op : CmdWord) :
    isReserved op = true ↔ slice op.toNat 7 5 ≠ 0 ∨ slice op.toNat 1 0 = 3 ∨ 6 ≤ slice op.toNat 4 2 := by
  have hop : op.toNat < 256 := op.isLt
  rw [isReserved_iff_ranges]
  simp only [slice]
  omega

/-- R67: the words in the three ranges are the words the decoder rejects. -/
theorem isReserved_iff_exists_decode_eq_error (op : CmdWord) :
    isReserved op = true ↔ ∃ e, decode op = .error e := by
  rw [exists_decode_eq_error_iff, splitWord_rsv_toNat, splitWord_fmt_toNat, splitWord_func_toNat,
    isReserved_iff_slices]

theorem isReserved_of_decode_ok {op : CmdWord} {i : Instr} (h : decode op = .ok i) : isReserved op = false := by
  rw [← Bool.not_eq_true, isReserved_iff_exists_decode_eq_error, h]
  rintro ⟨e, he⟩
  cases he

theorem isReserved_of_decode_error {op : CmdWord} {e : DecodeError} (h : decode op = .error e) :
    isReserved op = true :=
  (isReserved_iff_exists_decode_eq_error op).2 ⟨e, h⟩

/-- R67: 14 words below 0x20 (eight with `fmt = 11`, six more with `func` `110` or `111`) and all 224 from 0x20 on. -/
theorem countP_isReserved : (List.range 256).countP (fun n => isReserved (BitVec.ofNat 8 n)) = 238 := by
  have hlow : (List.range 32).countP (fun n => isReserved (BitVec.ofNat 8 n)) = 14 := by decide
  have hhigh : ((List.range 224).map (32 + ·)).countP (fun n => isReserved (BitVec.ofNat 8 n)) = 224 := by
    rw [List.countP_eq_length.2 fun n hn => ?_, List.length_map, List.length_range]
    obtain ⟨k, hk, rfl⟩ := List.mem_map.1 hn
    have hlt : k < 224 := List.mem_range.1 hk
    rw [isReserved_iff_ranges, BitVec.toNat_ofNat]
    omega
  rw [show 256 = 32 + 224 from rfl, List.range_add, List.countP_append, hlow, hhigh]

end Sys2Proof
end

section
/-! SUPPORT. The step against R68's top-level function, on the two outcomes of the decoder, and the answer to a reserved word. -/

namespace Sys2Proof.Machine

theorem formatOfField_code (f : Fmt) : formatOfField f.code.toNat = f := by
  cases f <;> rfl

/-- R68's chain on the function number, at a command's code, is the command's result. -/
theorem resultOfField_code (i : Instr) (a : Word) : resultOfField i.func.code.toNat i.fmt a = resultOf i a := by
  rw [resultOf]
  cases i.func <;> rfl

theorem topLevel_of_decode_ok {op : CmdWord} {i : Instr} (h : decode op = .ok i) (a : Word) :
    topLevel op a = (BitVec.ofNat 64 (resultOf i a), false) := by
  have hlegal : ¬ (slice op.toNat 7 5 ≠ 0 ∨ slice op.toNat 1 0 = 3 ∨ 6 ≤ slice op.toNat 4 2) := by
    rw [← isReserved_iff_slices, isReserved_of_decode_ok h]
    exact Bool.false_ne_true
  have hfields : splitWord op = i.fields := (decode_eq_ok_iff_fields op i).1 h
  have hfunc : slice op.toNat 4 2 = i.func.code.toNat := by rw [← splitWord_func_toNat, hfields, Instr.fields]
  have hfmt : slice op.toNat 1 0 = i.fmt.code.toNat := by rw [← splitWord_fmt_toNat, hfields, Instr.fields]
  rw [topLevel, if_neg hlegal, hfunc, hfmt, formatOfField_code, resultOfField_code]

theorem topLevel_of_decode_error {op : CmdWord} {e : DecodeError} (h : decode op = .error e) (a : Word) :
    topLevel op a = (0#64, true) :=
  if_pos ((isReserved_iff_slices op).1 (isReserved_of_decode_error h))

/-- Settles O4: on each outcome of the decoder the step's answer and the top-level function write the same two outputs. -/
theorem stepIsTheTopLevelFunction : Obligations.StepIsTheTopLevelFunction := by
  intro s
  cases h : decode s.op with
  | ok i =>
    rw [step_of_decode_ok h, topLevel_of_decode_ok h]
    rfl
  | error e =>
    rw [step_of_decode_error h, topLevel_of_decode_error h]
    rfl

/-- Settles O6: a word in the ranges is one the decoder rejects, and a word it accepts gets a command's answer. -/
theorem reservedWordsDriveOnlyIll : Obligations.ReservedWordsDriveOnlyIll := by
  simp only [Obligations.ReservedWordsDriveOnlyIll, ← isReserved_iff_ranges]
  refine ⟨fun s hres => ?_, fun s hlegal => ?_, countP_isReserved⟩
  · obtain ⟨e, he⟩ := (isReserved_iff_exists_decode_eq_error s.op).1 hres
    exact step_of_decode_error he
  · cases h : decode s.op with
    | ok i => exact ⟨_, step_of_decode_ok h, answer_ill _ _⟩
    | error e => exact absurd (isReserved_of_decode_error h) hlegal

end Sys2Proof.Machine
end

section
/-! SUPPORT. The three fields of a pattern (R80): each is a quotient and a remainder, of the pattern and so of the port `a`;
together they are the pattern (R66, R90), and zero-extended they are slices of `a` (R81 to R89). -/

namespace Sys2Proof.Machine

/-! ### The fields and the pattern -/

theorem fieldsOf_sign_toNat (f : Fmt) (p : Nat) : (fieldsOf f p).sign.toNat = p / 2 ^ (f.width - 1) % 2 := by
  have hslice : slice p (f.width - 1) (f.width - 1) = p / 2 ^ (f.width - 1) % 2 := by simp [slice]
  rw [fieldsOf, hslice]
  rcases Nat.mod_two_eq_zero_or_one (p / 2 ^ (f.width - 1)) with h | h <;> simp [h]

/-- R66: packing the fields of a number gives its low `W` bits. -/
theorem packFields_fieldsOf (f : Fmt) (p : Nat) : packFields f (fieldsOf f p) = p % 2 ^ f.width := by
  have hsign : f.width - 1 = f.fracBits + f.expBits := by rw [width_eq]; omega
  have hwidth : 2 ^ f.width = 2 ^ f.fracBits * 2 ^ f.expBits * 2 := by rw [width_eq]; ring
  rw [packFields, fieldsOf_sign_toNat, fieldsOf_exp, fieldsOf_frac, hsign, hwidth, Nat.mod_mul, Nat.mod_mul, pow_add]
  ring

/-! ### The fields of the operand, read from the port -/

theorem fieldsOf_patternOperand_sign (f : Fmt) (a : Word) :
    (fieldsOf f (patternOperand f a)).sign.toNat = a.toNat / 2 ^ (f.width - 1) % 2 := by
  have hwidth : 2 ^ f.width = 2 ^ (f.width - 1) * 2 := by rw [← pow_succ, width_eq]; congr 1; omega
  rw [fieldsOf_sign_toNat, patternOperand_eq_mod, hwidth, Nat.mod_mul_right_div_self, Nat.mod_mod]

theorem fieldsOf_patternOperand_exp (f : Fmt) (a : Word) :
    (fieldsOf f (patternOperand f a)).exp = a.toNat / 2 ^ f.fracBits % 2 ^ f.expBits := by
  have hwidth : 2 ^ f.width = 2 ^ f.fracBits * (2 ^ f.expBits * 2) := by rw [width_eq]; ring
  rw [fieldsOf_exp, patternOperand_eq_mod, hwidth, Nat.mod_mul_right_div_self, Nat.mod_mul_right_mod]

theorem fieldsOf_patternOperand_frac (f : Fmt) (a : Word) :
    (fieldsOf f (patternOperand f a)).frac = a.toNat % 2 ^ f.fracBits := by
  have hdvd : 2 ^ f.fracBits ∣ 2 ^ f.width := pow_dvd_pow 2 (by rw [width_eq]; omega)
  rw [fieldsOf_frac, patternOperand_eq_mod, Nat.mod_mod_of_dvd _ hdvd]

/-! ### The answer as a slice of the port -/

/-- R9: the slice of `n` bits from bit `lo`, zero-extended, as a number. -/
theorem setWidth_extractLsb'_eq_ofNat (a : Word) (lo n : Nat) :
    (a.extractLsb' lo n).setWidth 64 = BitVec.ofNat 64 (a.toNat / 2 ^ lo % 2 ^ n) := by
  rw [← BitVec.ofNat_toNat, BitVec.extractLsb'_toNat, Nat.shiftRight_eq_div_pow]

/-- What a command leaves when its result is a slice of the operand: the slice on `y`, `ill` clear, the inputs as driven. -/
theorem answer_slice (s : State) (lo n : Nat) :
    answer (s.a.toNat / 2 ^ lo % 2 ^ n) s = { s with y := (s.a.extractLsb' lo n).setWidth 64, ill := false } := by
  rw [setWidth_extractLsb'_eq_ofNat]
  rfl

theorem exec_xsgn (f : Fmt) (s : State) : exec (Instr.of .xsgn f) s = .next (extractSign f s) := by
  cases f <;> rfl

theorem exec_xexp (f : Fmt) (s : State) : exec (Instr.of .xexp f) s = .next (extractExp f s) := by
  cases f <;> rfl

theorem exec_xfrc (f : Fmt) (s : State) : exec (Instr.of .xfrc f) s = .next (extractFrac f s) := by
  cases f <;> rfl

/-- R81 to R83 for every format: XSGN answers bit `W - 1` of the operand. -/
theorem exec_xsgn_slice (f : Fmt) (s : State) :
    exec (Instr.of .xsgn f) s =
      .next { s with y := (s.a.extractLsb' (f.width - 1) 1).setWidth 64, ill := false } := by
  rw [exec_xsgn, extractSign, fieldsOf_patternOperand_sign, ← answer_slice, pow_one]

/-- R84 to R86 for every format: XEXP answers the `EB` bits of the operand from bit `FB`. -/
theorem exec_xexp_slice (f : Fmt) (s : State) :
    exec (Instr.of .xexp f) s =
      .next { s with y := (s.a.extractLsb' f.fracBits f.expBits).setWidth 64, ill := false } := by
  rw [exec_xexp, extractExp, fieldsOf_patternOperand_exp, answer_slice]

/-- R87 to R89 for every format: XFRC answers the lowest `FB` bits of the operand. -/
theorem exec_xfrc_slice (f : Fmt) (s : State) :
    exec (Instr.of .xfrc f) s =
      .next { s with y := (s.a.extractLsb' 0 f.fracBits).setWidth 64, ill := false } := by
  rw [exec_xfrc, extractFrac, fieldsOf_patternOperand_frac, ← answer_slice, pow_zero, Nat.div_one]

/-- Settles O14: the sign bit of the three formats is bit 15, 31 and 63. -/
theorem xsgnDrivesTheSignBit : Obligations.XsgnDrivesTheSignBit :=
  fun s => ⟨exec_xsgn_slice .h s, exec_xsgn_slice .s s, exec_xsgn_slice .d s⟩

/-- Settles O15: the exponent fields start above 10, 23 and 52 fraction bits. -/
theorem xexpDrivesTheBiasedExponent : Obligations.XexpDrivesTheBiasedExponent :=
  fun s => ⟨exec_xexp_slice .h s, exec_xexp_slice .s s, exec_xexp_slice .d s⟩

/-- Settles O16: the fractions are the lowest 10, 23 and 52 bits. -/
theorem xfrcDrivesTheFraction : Obligations.XfrcDrivesTheFraction :=
  fun s => ⟨exec_xfrc_slice .h s, exec_xfrc_slice .s s, exec_xfrc_slice .d s⟩

/-! ### Reassembly -/

/-- A result that fits in the port stands on `y` as the same number (R65). -/
theorem answer_y_toNat_of_lt {r n : Nat} (h : r < 2 ^ n) (hn : n ≤ 64) (s : State) : (answer r s).y.toNat = r := by
  rw [answer_y, BitVec.toNat_ofNat]
  exact Nat.mod_eq_of_lt (h.trans_le (Nat.pow_le_pow_right two_pos hn))

theorem extractSign_y_toNat (f : Fmt) (s : State) :
    (extractSign f s).y.toNat = (fieldsOf f (patternOperand f s.a)).sign.toNat :=
  answer_y_toNat_of_lt (n := 1) (Bool.toNat_lt _) (by decide) s

theorem extractExp_y_toNat (f : Fmt) (s : State) :
    (extractExp f s).y.toNat = (fieldsOf f (patternOperand f s.a)).exp :=
  answer_y_toNat_of_lt (fieldsOf_exp_lt _ _) (by cases f <;> decide) s

theorem extractFrac_y_toNat (f : Fmt) (s : State) :
    (extractFrac f s).y.toNat = (fieldsOf f (patternOperand f s.a)).frac :=
  answer_y_toNat_of_lt (fieldsOf_frac_lt _ _) (by cases f <;> decide) s

/-- R90's concatenation is the packing of R66, whose sign has the weight `2^(EB + FB)`. -/
theorem concat_eq_packFields (f : Fmt) (x : Fields) :
    (x.sign.toNat * 2 ^ f.expBits + x.exp) * 2 ^ f.fracBits + x.frac = packFields f x := by
  have hsign : f.width - 1 = f.expBits + f.fracBits := by rw [width_eq]; omega
  rw [packFields, hsign, pow_add]
  ring

/-- Settles O17: the three results are the fields of the operand, and packing the fields of a pattern gives the pattern. -/
theorem extractedFieldsReassemble : Obligations.ExtractedFieldsReassemble := by
  intro f s
  refine ⟨_, _, _, exec_xsgn f s, exec_xexp f s, exec_xfrc f s, ?_⟩
  rw [extractSign_y_toNat, extractExp_y_toNat, extractFrac_y_toNat]
  refine ⟨Bool.toNat_lt _, fieldsOf_exp_lt _ _, fieldsOf_frac_lt _ _, ?_⟩
  rw [concat_eq_packFields, packFields_fieldsOf, Nat.mod_eq_of_lt (patternOperand_lt _ _), patternOperand_eq_mod]

end Sys2Proof.Machine
end

section
/-! SUPPORT. The classifier (R100 to R105). The exponent and the fraction together are the magnitude bits of a pattern, so the
class splits them at the ends of R102 to R104; and the class and the decoded value split the same two fields. -/

namespace Sys2Proof.Machine

/-! ### The class by the magnitude bits -/

/-- `W - 1 = FB + EB` (R5): the bits below the sign. -/
theorem width_sub_one (f : Fmt) : f.width - 1 = f.fracBits + f.expBits := by
  rw [width_eq]
  omega

/-- R80: the exponent and the fraction, put together, are the bits below the sign. -/
theorem exp_mul_add_frac (f : Fmt) (p : Nat) :
    (fieldsOf f p).exp * 2 ^ f.fracBits + (fieldsOf f p).frac = p % 2 ^ (f.width - 1) := by
  rw [fieldsOf_exp, fieldsOf_frac, width_sub_one, pow_add, Nat.mod_mul]
  ring

theorem emaxField_pos (f : Fmt) : 0 < f.emaxField := by
  cases f <;> decide

/-- R102 to R104 for every format: the class of the magnitude bits `m`, by the largest subnormal, the largest normal and
infinity. -/
def classOfMagnitude (f : Fmt) (m : Nat) : NumClass :=
  if m = 0 then .zero
  else if m ≤ 2 ^ f.fracBits - 1 then .subnormal
  else if m ≤ f.emaxField * 2 ^ f.fracBits - 1 then .normal
  else if m = f.emaxField * 2 ^ f.fracBits then .infinity
  else .nan

/-- The class reads the fields, R102 to R104 the magnitude bits `E * 2^FB + F`; a fraction is below `2^FB`. -/
theorem classOf_eq_classOfMagnitude (f : Fmt) (p : Nat) : classOf f p = classOfMagnitude f (p % 2 ^ (f.width - 1)) := by
  have hF : (fieldsOf f p).frac < 2 ^ f.fracBits := fieldsOf_frac_lt f p
  have hmax : 2 ^ f.fracBits ≤ f.emaxField * 2 ^ f.fracBits := Nat.le_mul_of_pos_left _ (emaxField_pos f)
  rw [← exp_mul_add_frac, classOfMagnitude]
  rcases classOf_cases f p with ⟨hE, h0, h⟩ | ⟨hE, h0, h⟩ | ⟨hE, h0, h⟩ | ⟨hE, h0, h⟩ | ⟨hlo, hhi, h⟩ <;> rw [h]
  · rw [hE, if_neg, if_neg, if_neg, if_pos] <;> omega
  · rw [hE, if_neg, if_neg, if_neg, if_neg] <;> omega
  · rw [hE, if_pos]
    omega
  · rw [hE, if_neg, if_pos] <;> omega
  · have hlow : 2 ^ f.fracBits ≤ (fieldsOf f p).exp * 2 ^ f.fracBits := Nat.le_mul_of_pos_left _ hlo
    have hhigh : (fieldsOf f p).exp * 2 ^ f.fracBits + 2 ^ f.fracBits ≤ f.emaxField * 2 ^ f.fracBits := by
      rw [← Nat.succ_mul]
      exact Nat.mul_le_mul_right _ hhi
    rw [if_neg, if_neg, if_pos] <;> omega

/-- CLASS for every format: the code of the operand's magnitude bits on `y`, `ill` clear, the inputs as driven. -/
theorem exec_cls (f : Fmt) (s : State) :
    exec (Instr.of .cls f) s = .next { s with
      y := BitVec.ofNat 64 (classOfMagnitude f (s.a.toNat % 2 ^ (f.width - 1))).code, ill := false } := by
  have hdvd : 2 ^ (f.width - 1) ∣ 2 ^ f.width := pow_dvd_pow 2 (Nat.sub_le _ _)
  rw [exec_eq_answer, resultOf, func_of, fmt_of, classOf_eq_classOfMagnitude, patternOperand_eq_mod,
    Nat.mod_mod_of_dvd _ hdvd]
  rfl

/-- The code of a magnitude is driven by the same chain of ranges. -/
theorem ofNat_code_classOfMagnitude (f : Fmt) (m : Nat) :
    BitVec.ofNat 64 (classOfMagnitude f m).code =
      if m = 0 then 0#64
      else if m ≤ 2 ^ f.fracBits - 1 then 1#64
      else if m ≤ f.emaxField * 2 ^ f.fracBits - 1 then 2#64
      else if m = f.emaxField * 2 ^ f.fracBits then 3#64
      else 4#64 := by
  rw [classOfMagnitude]
  split_ifs <;> rfl

/-- Settles O18: the ends of the ranges are the numbers of R102, R103 and R104. -/
theorem classCodesByMagnitude : Obligations.ClassCodesByMagnitude := by
  intro s
  have hcls (f : Fmt) := exec_cls f s
  simp only [ofNat_code_classOfMagnitude] at hcls
  exact ⟨hcls .h, hcls .s, hcls .d⟩

/-! ### The class and the decoded value -/

/-- The class and the value of a pattern together: `Class` and `Decode` split the fields in the same way (R100, R110). -/
theorem classOf_decodeValue_cases (f : Fmt) (p : Nat) :
    (classOf f p = .infinity ∧ decodeValue f p = .inf (fieldsOf f p).sign) ∨
    (classOf f p = .nan ∧ decodeValue f p = .nan (fieldsOf f p).sign) ∨
    (classOf f p = .zero ∧ decodeValue f p = .zero (fieldsOf f p).sign) ∨
    (classOf f p = .subnormal ∧ (fieldsOf f p).frac ≠ 0 ∧
      decodeValue f p = .fin (fieldsOf f p).sign (fieldsOf f p).frac f.minSubnormalExp) ∨
    (classOf f p = .normal ∧ 0 < (fieldsOf f p).exp ∧
      decodeValue f p = .fin (fieldsOf f p).sign (2 ^ f.fracBits + (fieldsOf f p).frac)
        ((fieldsOf f p).exp - (f.bias : Int) - f.fracBits)) := by
  have hmax : f.emaxField ≠ 0 := (emaxField_pos f).ne'
  rcases decodeValue_cases f p with ⟨hE, hF, h⟩ | ⟨hE, hF, h⟩ | ⟨hE, hF, h⟩ | ⟨hE, hF, h⟩ | ⟨hlo, hhi, h⟩
  · exact .inl ⟨by simp [classOf, hE, hF], h⟩
  · exact .inr (.inl ⟨by simp [classOf, hE, hF], h⟩)
  · exact .inr (.inr (.inl ⟨by simp [classOf, hE, hF, hmax.symm], h⟩))
  · exact .inr (.inr (.inr (.inl ⟨by simp [classOf, hE, hF, hmax.symm], hF, h⟩)))
  · exact .inr (.inr (.inr (.inr ⟨by simp [classOf, hhi.ne, hlo.ne'], hlo, h⟩)))

/-- R6: the smallest normal is `2^FB` smallest subnormals. -/
theorem two_zpow_minNormalExp (f : Fmt) : (2 : ℚ) ^ f.minNormalExp = 2 ^ f.fracBits * 2 ^ f.minSubnormalExp := by
  rw [← zpow_natCast, ← zpow_add₀ two_ne_zero, Fmt.minNormalExp, Fmt.minSubnormalExp]
  congr 1
  ring

/-- A fraction counts smallest subnormals, and is below `2^FB`. -/
theorem subnormal_lt_minNormal {f : Fmt} {F : Nat} (h : F < 2 ^ f.fracBits) :
    (F : ℚ) * 2 ^ f.minSubnormalExp < 2 ^ f.minNormalExp := by
  rw [two_zpow_minNormalExp]
  gcongr
  exact_mod_cast h

/-- The leading bit alone is `2^(E - BIAS)`, and `E` is at least 1. -/
theorem minNormal_le_normal {f : Fmt} {E : Nat} (h : 0 < E) (F : Nat) :
    (2 : ℚ) ^ f.minNormalExp ≤ ((2 ^ f.fracBits + F : ℕ) : ℚ) * 2 ^ ((E : ℤ) - f.bias - f.fracBits) := by
  rw [two_zpow_minNormalExp]
  gcongr
  · push_cast
    exact le_add_of_nonneg_right F.cast_nonneg
  · exact one_le_two
  · rw [Fmt.minSubnormalExp]
    omega

/-- Settles O19: in each of the five joint cases the class names the kind of the value; the two finite ones are bounded by the
smallest normal. -/
theorem classAgreesWithTheValue : Obligations.ClassAgreesWithTheValue := by
  intro f p _
  rcases classOf_decodeValue_cases f p with ⟨hc, hd⟩ | ⟨hc, hd⟩ | ⟨hc, hd⟩ | ⟨hc, hF, hd⟩ | ⟨hc, hE, hd⟩
  · simp [hc, hd]
  · simp [hc, hd]
  · simp [hc, hd]
  · have hpos : (0 : ℚ) < (fieldsOf f p).frac * 2 ^ f.minSubnormalExp := by positivity
    have hlt := subnormal_lt_minNormal (fieldsOf_frac_lt f p)
    simpa [hc, hd, Value.magnitude?, hpos] using hlt
  · have hle := minNormal_le_normal (f := f) hE (fieldsOf f p).frac
    simpa [hc, hd, Value.magnitude?] using hle

end Sys2Proof.Machine
end

section
/-! SUPPORT. The values patterns decode to (42_decode.md R110): the fields of a packed pattern are the packed fields, and the
machine's `M * 2^E` is the source's formula over the rationals. -/

namespace Sys2Proof.Machine

/-- A sign is told by the bit that stands for it. -/
theorem boolToNat_injective : Function.Injective Bool.toNat := by decide

/-- R66, R80: the fields of a packed pattern are the packed fields, where each fits its width. -/
theorem fieldsOf_packFields {f : Fmt} {x : Fields} (hE : x.exp < 2 ^ f.expBits) (hF : x.frac < 2 ^ f.fracBits) :
    fieldsOf f (packFields f x) = x := by
  obtain ⟨s, E, F⟩ := x
  have hsplit : packFields f ⟨s, E, F⟩ = F + 2 ^ f.fracBits * (E + 2 ^ f.expBits * s.toNat) := by
    rw [← concat_eq_packFields]
    ring
  have hhigh : packFields f ⟨s, E, F⟩ / 2 ^ f.fracBits = E + 2 ^ f.expBits * s.toNat := by
    rw [hsplit, Nat.add_mul_div_left _ _ (Nat.two_pow_pos _), Nat.div_eq_of_lt hF, Nat.zero_add]
  have hsign : (fieldsOf f (packFields f ⟨s, E, F⟩)).sign = s := by
    apply boolToNat_injective
    rw [fieldsOf_sign_toNat, width_sub_one, pow_add, ← Nat.div_div_eq_div_mul, hhigh,
      Nat.add_mul_div_left _ _ (Nat.two_pow_pos _), Nat.div_eq_of_lt hE, Nat.zero_add, Nat.mod_eq_of_lt (Bool.toNat_lt s)]
  have hexp : (fieldsOf f (packFields f ⟨s, E, F⟩)).exp = E := by
    rw [fieldsOf_exp, hhigh, Nat.add_mul_mod_self_left, Nat.mod_eq_of_lt hE]
  have hfrac : (fieldsOf f (packFields f ⟨s, E, F⟩)).frac = F := by
    rw [fieldsOf_frac, hsplit, Nat.add_mul_mod_self_left, Nat.mod_eq_of_lt hF]
  calc fieldsOf f (packFields f ⟨s, E, F⟩)
      = ⟨(fieldsOf f (packFields f ⟨s, E, F⟩)).sign, (fieldsOf f (packFields f ⟨s, E, F⟩)).exp,
          (fieldsOf f (packFields f ⟨s, E, F⟩)).frac⟩ := rfl
    _ = ⟨s, E, F⟩ := by rw [hsign, hexp, hfrac]

/-- R110: the leading bit and the fraction over `2^FB` are the machine's whole number `2^FB + F`, scaled down by `2^FB`. -/
theorem normal_magnitude_eq_formula (f : Fmt) (E F : Nat) :
    ((2 ^ f.fracBits + F : ℕ) : ℚ) * 2 ^ ((E : ℤ) - f.bias - f.fracBits) =
      (1 + (F : ℚ) / 2 ^ f.fracBits) * 2 ^ ((E : ℤ) - f.bias) := by
  rw [zpow_sub₀ two_ne_zero, zpow_natCast]
  push_cast
  field_simp

/-- Settles O20: `Decode` reads the packed fields back and splits them as the statement does. -/
theorem decodedValuesFollowTheFormulas : Obligations.DecodedValuesFollowTheFormulas := by
  intro f s E F hE hF
  have hmax : 0 ≠ f.emaxField := (emaxField_pos f).ne
  rw [decodeValue, fieldsOf_packFields hE hF]
  refine ⟨?inf, ?nan, ?zero, ?subnormal, ?normal⟩
  case inf =>
    rintro rfl rfl
    simp
  case nan =>
    rintro rfl hne
    simp [hne]
  case zero =>
    rintro rfl rfl
    simp [hmax]
  case subnormal =>
    rintro rfl hne
    exact ⟨F, f.minSubnormalExp, by simp [hmax, hne], rfl⟩
  case normal =>
    intro lo hi
    exact ⟨2 ^ f.fracBits + F, (E : ℤ) - f.bias - f.fracBits, by simp [lo.ne', hi.ne], normal_magnitude_eq_formula f E F⟩

end Sys2Proof.Machine
end

section
/-! SUPPORT. Packing a value that the format holds rounds nothing (R114, 43_encode.md R137 to R139): the quotients that would be
rounded are whole numbers. So packing what was decoded in the same format gives the pattern back (R119, R156). -/

namespace Sys2Proof.Machine

/-! ### Exact packing -/

/-- The fraction of a magnitude with at most `FB` bits below its leading one needs no rounding (R138). -/
theorem normalFraction_exact {f : Fmt} {M : Nat} (h : Nat.log2 M ≤ f.fracBits) :
    normalFraction f M = (M - 2 ^ Nat.log2 M) * 2 ^ (f.fracBits - Nat.log2 M) := by
  rw [normalFraction, ← Nat.sub_add_cancel h, pow_add, ← Nat.mul_assoc, rne_mul_self _ (Nat.two_pow_pos _),
    Nat.sub_add_cancel h]

/-- The bits below the leading one, moved to the top of the fraction field, fit it. -/
theorem exactFraction_lt {f : Fmt} {M : Nat} (h : Nat.log2 M ≤ f.fracBits) :
    (M - 2 ^ Nat.log2 M) * 2 ^ (f.fracBits - Nat.log2 M) < 2 ^ f.fracBits := by
  have hlow : M - 2 ^ Nat.log2 M < 2 ^ Nat.log2 M := by
    have hM : M < 2 ^ (Nat.log2 M + 1) := Nat.lt_log2_self
    have hpos := Nat.two_pow_pos (Nat.log2 M)
    omega
  calc (M - 2 ^ Nat.log2 M) * 2 ^ (f.fracBits - Nat.log2 M)
      < 2 ^ Nat.log2 M * 2 ^ (f.fracBits - Nat.log2 M) := Nat.mul_lt_mul_of_pos_right hlow (Nat.two_pow_pos _)
    _ = 2 ^ f.fracBits := by rw [← pow_add, Nat.add_sub_cancel' h]

/-- A magnitude in the normal range with at most `FB` bits below its leading one is packed exactly, with no carry (R138). -/
theorem packFinite_exact_normal {f : Fmt} {s : Bool} {M E : Nat} {X : Int} (hM : Nat.log2 M ≤ f.fracBits)
    (hE : unbiasedExp M X + f.bias = E) (lo : 0 < E) (hi : E < f.emaxField) :
    packFinite f s M X = packFields f ⟨s, E, (M - 2 ^ Nat.log2 M) * 2 ^ (f.fracBits - Nat.log2 M)⟩ := by
  have hnoCarry : ¬ f.emaxField * 2 ^ f.fracBits ≤ E * 2 ^ f.fracBits + normalFraction f M := by
    have hfrac := normalFraction_exact hM ▸ exactFraction_lt hM
    have hle : (E + 1) * 2 ^ f.fracBits ≤ f.emaxField * 2 ^ f.fracBits := Nat.mul_le_mul_right _ hi
    rw [Nat.succ_mul] at hle
    omega
  rw [packFinite_of_normal (by omega) (by omega), hE, Int.toNat_natCast, packNormal, if_neg hnoCarry,
    normalFraction_exact hM, packFields, signPattern, Nat.add_assoc]

/-- A subnormal of the format is a whole number of smallest subnormals, packed exactly (R137). -/
theorem packFinite_exact_subnormal {f : Fmt} (s : Bool) {F : Nat} (h0 : F ≠ 0) (h : F < 2 ^ f.fracBits) :
    packFinite f s F f.minSubnormalExp = packFields f ⟨s, 0, F⟩ := by
  have hlog : Nat.log2 F < f.fracBits := (Nat.log2_lt h0).2 h
  have hexp : unbiasedExp F f.minSubnormalExp + f.bias = 1 - ((f.fracBits - Nat.log2 F : ℕ) : ℤ) := by
    rw [unbiasedExp, Fmt.minSubnormalExp]
    omega
  have hshift : (1 - (1 - ((f.fracBits - Nat.log2 F : ℕ) : ℤ))).toNat = f.fracBits - Nat.log2 F := by omega
  have hfrac : subnormalFraction f F (f.fracBits - Nat.log2 F) = F := by
    rw [subnormalFraction, Nat.add_sub_cancel' hlog.le, rne_mul_self _ (Nat.two_pow_pos _)]
  rw [packFinite_of_small (by omega), hexp, hshift, packSubnormal, if_neg (by omega), hfrac, packFields, signPattern,
    Nat.zero_mul, Nat.add_zero]

/-! ### Packing what was decoded -/

/-- A normal's whole number `2^FB + F` has its leading one at bit `FB`. -/
theorem log2_two_pow_add {k F : Nat} (h : F < 2 ^ k) : Nat.log2 (2 ^ k + F) = k :=
  log2_eq_of_bounds (Nat.le_add_right _ _) (by rw [pow_succ]; omega)

/-- R119 and R156 as one fact: off NaN, packing a decoded pattern in its own format gives the pattern back. -/
theorem roundPack_decodeValue {f : Fmt} {p : Nat} (h : classOf f p ≠ .nan) :
    roundPack f (decodeValue f p) = p % 2 ^ f.width := by
  rw [← packFields_fieldsOf]
  rcases decodeValue_cases f p with ⟨hE, hF, hd⟩ | ⟨hE, hF, -⟩ | ⟨hE, hF, hd⟩ | ⟨hE, hF, hd⟩ | ⟨hlo, hhi, hd⟩
  · rw [hd, roundPack, infPattern, signPattern, packFields, hE, hF, Nat.add_zero]
  · exact absurd (by simp [classOf, hE, hF]) h
  · rw [hd, roundPack, signPattern, packFields, hE, hF, Nat.zero_mul, Nat.add_zero]
  · rw [hd, roundPack, packFinite_exact_subnormal _ hF (fieldsOf_frac_lt f p), ← hE]
  · have hlog := log2_two_pow_add (fieldsOf_frac_lt f p)
    rw [hd, roundPack, packFinite_exact_normal (E := (fieldsOf f p).exp) hlog.le (by rw [unbiasedExp, hlog]; ring) hlo hhi,
      hlog, Nat.add_sub_cancel_left, Nat.sub_self, pow_zero, Nat.mul_one]

/-- R102 to R104: the NaNs are the magnitudes above infinity. -/
theorem classOf_eq_nan_iff (f : Fmt) (p : Nat) :
    classOf f p = .nan ↔ f.emaxField * 2 ^ f.fracBits < p % 2 ^ (f.width - 1) := by
  have hmax : 2 ^ f.fracBits ≤ f.emaxField * 2 ^ f.fracBits := Nat.le_mul_of_pos_left _ (emaxField_pos f)
  rw [classOf_eq_classOfMagnitude, classOfMagnitude]
  split_ifs <;> simp only [false_iff, true_iff] <;> omega

/-- R111: a NaN pattern decodes to the NaN with its sign. -/
theorem decodeValue_of_classOf_nan {f : Fmt} {p : Nat} (h : classOf f p = .nan) :
    decodeValue f p = .nan (fieldsOf f p).sign := by
  rcases classOf_decodeValue_cases f p with ⟨hc, -⟩ | ⟨-, hd⟩ | ⟨hc, -⟩ | ⟨hc, -⟩ | ⟨hc, -⟩
  case inr.inl => exact hd
  all_goals exact absurd (h.symm.trans hc) (by decide)

/-- R80: the sign of the operand is bit `W - 1` of the port. -/
theorem fieldsOf_patternOperand_sign_eq_getLsbD (f : Fmt) (a : Word) :
    (fieldsOf f (patternOperand f a)).sign = a.getLsbD (f.width - 1) := by
  apply boolToNat_injective
  rw [fieldsOf_patternOperand_sign, BitVec.getLsbD, Nat.toNat_testBit]

/-- Decoding the operand and packing it in its own format, read from the port: the pattern up to infinity, above it the canonical
NaN with the sign (R119; R142, R143 and R156 for the encoder). -/
theorem roundPack_decodeValue_patternOperand (f : Fmt) (a : Word) :
    roundPack f (decodeValue f (patternOperand f a)) =
      if a.toNat % 2 ^ (f.width - 1) ≤ f.emaxField * 2 ^ f.fracBits then a.toNat % 2 ^ f.width
      else nanPattern f (a.getLsbD (f.width - 1)) := by
  have hnan : classOf f (patternOperand f a) = .nan ↔ f.emaxField * 2 ^ f.fracBits < a.toNat % 2 ^ (f.width - 1) := by
    rw [classOf_eq_nan_iff, patternOperand_eq_mod, Nat.mod_mod_of_dvd _ (pow_dvd_pow 2 (Nat.sub_le _ _))]
  split_ifs with h
  · rw [roundPack_decodeValue (mt hnan.1 h.not_gt), patternOperand_eq_mod, Nat.mod_mod]
  · rw [decodeValue_of_classOf_nan (hnan.2 (not_le.1 h)), roundPack, fieldsOf_patternOperand_sign_eq_getLsbD]

end Sys2Proof.Machine
end

section
/-! SUPPORT. The decoder DEC (42_decode.md R112 to R119): what it answers for a NaN, for the formats that are their own native
format, and for binary16 into binary32. -/

namespace Sys2Proof.Machine

/-- R114: DEC drives `DECODE_OUT` of the operand, clears `ill` and leaves the inputs as driven. -/
theorem exec_dec (f : Fmt) (s : State) :
    exec (Instr.of .dec f) s =
      .next { s with y := BitVec.ofNat 64 (decodeOut f (patternOperand f s.a)), ill := false } := by
  rw [exec_eq_answer, resultOf, func_of, fmt_of]
  rfl

/-- Settles O24: packing a NaN gives the canonical NaN of the native format (R131), whose number R112 writes out. -/
theorem decOfNaNIsTheCanonicalQuietNaN : Obligations.DecOfNaNIsTheCanonicalQuietNaN := by
  intro f s g hg
  rw [exec_dec, decodeOut, patternOperand_eq_mod, hg, roundPack]
  cases f <;> cases g <;> rfl

theorem ofNat_nanPattern_s (g : Bool) :
    BitVec.ofNat 64 (nanPattern .s g) = if g then 0xFFC00000#64 else 0x7FC00000#64 := by
  cases g <;> rfl

theorem ofNat_nanPattern_d (g : Bool) :
    BitVec.ofNat 64 (nanPattern .d g) = if g then 0xFFF8000000000000#64 else 0x7FF8000000000000#64 := by
  cases g <;> rfl

/-- The low `n` bits of a port, zero-extended (R9). -/
theorem ofNat_toNat_mod (a : Word) (n : Nat) : BitVec.ofNat 64 (a.toNat % 2 ^ n) = (a.setWidth n).setWidth 64 := by
  rw [← BitVec.toNat_setWidth, BitVec.ofNat_toNat]

/-- R119 for a format that is its own native format: the pattern up to infinity, above it the canonical NaN with the sign. -/
theorem exec_dec_of_native_eq {f : Fmt} (h : f.native = f) (s : State) :
    exec (Instr.of .dec f) s = .next { s with
      y := if s.a.toNat % 2 ^ (f.width - 1) ≤ f.emaxField * 2 ^ f.fracBits then (s.a.setWidth f.width).setWidth 64
        else BitVec.ofNat 64 (nanPattern f (s.a.getLsbD (f.width - 1))),
      ill := false } := by
  rw [exec_dec, decodeOut, h, roundPack_decodeValue_patternOperand, apply_ite (BitVec.ofNat 64), ofNat_toNat_mod]

/-- Settles O23: `N(S) = S` and `N(D) = D`, and the low 64 bits of the port are the port. -/
theorem decSAndDecDAreTheIdentityOffNaN : Obligations.DecSAndDecDAreTheIdentityOffNaN := by
  intro s
  have hS := exec_dec_of_native_eq (f := .s) rfl s
  have hD := exec_dec_of_native_eq (f := .d) rfl s
  have hport : (s.a.setWidth (Fmt.width .d)).setWidth 64 = s.a := by
    rw [Fmt.width, BitVec.setWidth_eq, BitVec.setWidth_eq]
  rw [ofNat_nanPattern_s] at hS
  rw [ofNat_nanPattern_d, hport] at hD
  exact ⟨hS, hD⟩

/-! ### Binary16 into binary32 -/

/-- The subnormal line of R118: `F * 2^-24` is a normal of binary32, with its `k` bits below the leading one exact. -/
theorem packFinite_s_of_subnormal_h (s : Bool) {F : Nat} (h0 : F ≠ 0) (h : F < 2 ^ 10) :
    packFinite .s s F (Fmt.minSubnormalExp .h) =
      singlePattern s (Nat.log2 F + 103) ((F - 2 ^ Nat.log2 F) * 2 ^ (23 - Nat.log2 F)) := by
  have hlog : Nat.log2 F < 10 := (Nat.log2_lt h0).2 h
  have hexp : unbiasedExp F (Fmt.minSubnormalExp .h) + Fmt.bias .s = (Nat.log2 F + 103 : ℕ) := by
    simp only [unbiasedExp, Fmt.minSubnormalExp, Fmt.bias, Fmt.fracBits]
    omega
  have hmax : Nat.log2 F + 103 < Fmt.emaxField .s := lt_trans (by omega : _ < 113) (by decide)
  exact packFinite_exact_normal (hlog.le.trans (by decide)) hexp (Nat.succ_pos _) hmax

/-- The normal line of R118: the exponent rebiased by `127 - 15`, the 10 fraction bits at the top of the 23. -/
theorem packFinite_s_of_normal_h (s : Bool) {E F : Nat} (hE : E < 31) (h : F < 2 ^ 10) :
    packFinite .s s (2 ^ Fmt.fracBits .h + F) ((E : ℤ) - Fmt.bias .h - Fmt.fracBits .h) =
      singlePattern s (E + 112) (F * 2 ^ 13) := by
  have hlog : Nat.log2 (2 ^ Fmt.fracBits .h + F) = 10 := log2_two_pow_add h
  have hexp : unbiasedExp (2 ^ Fmt.fracBits .h + F) ((E : ℤ) - Fmt.bias .h - Fmt.fracBits .h) + Fmt.bias .s =
      (E + 112 : ℕ) := by
    rw [unbiasedExp, hlog]
    simp only [Fmt.bias, Fmt.fracBits]
    omega
  have hmax : E + 112 < Fmt.emaxField .s := lt_trans (by omega : _ < 143) (by decide)
  rw [packFinite_exact_normal (hlog.le.trans (by decide)) hexp (Nat.succ_pos _) hmax, hlog, Fmt.fracBits,
    Nat.add_sub_cancel_left]
  rfl

theorem infPattern_s (s : Bool) : infPattern .s s = singlePattern s 0xFF 0 := by
  cases s <;> rfl

theorem nanPattern_s (s : Bool) : nanPattern .s s = singlePattern s 0xFF 0x400000 := by
  cases s <;> rfl

theorem signPattern_s (s : Bool) : signPattern .s s = singlePattern s 0x00 0 := by
  cases s <;> rfl

/-- R118 on the fields of any binary16 pattern, line by line. -/
theorem decodeOut_h_eq_closedForm (p : Nat) :
    decodeOut .h p = decHClosedForm (fieldsOf .h p).sign (fieldsOf .h p).exp (fieldsOf .h p).frac := by
  have hfrac : (fieldsOf .h p).frac < 2 ^ 10 := fieldsOf_frac_lt .h p
  have hmax : Fmt.emaxField .h = 31 := rfl
  have hcases := decodeValue_cases .h p
  rw [hmax] at hcases
  rw [decodeOut, show Fmt.native .h = .s from rfl]
  rcases hcases with ⟨hE, hF, hd⟩ | ⟨hE, hF, hd⟩ | ⟨hE, hF, hd⟩ | ⟨hE, hF, hd⟩ | ⟨hlo, hhi, hd⟩ <;> rw [hd, roundPack]
  · simp [decHClosedForm, hE, hF, infPattern_s]
  · simp [decHClosedForm, hE, hF, nanPattern_s]
  · simp [decHClosedForm, hE, hF, signPattern_s]
  · simp [decHClosedForm, hE, hF, packFinite_s_of_subnormal_h _ hF hfrac]
  · simp [decHClosedForm, hlo.ne', hhi.ne, packFinite_s_of_normal_h _ hhi hfrac]

/-- Settles O22: the slices of the port are the fields of the operand. -/
theorem decHIsItsClosedForm : Obligations.DecHIsItsClosedForm := by
  intro s
  have hH := exec_dec .h s
  rw [decodeOut_h_eq_closedForm, fieldsOf_patternOperand_sign_eq_getLsbD, fieldsOf_patternOperand_exp,
    fieldsOf_patternOperand_frac] at hH
  exact hH

end Sys2Proof.Machine
end

section
/-! SUPPORT. Packing over exact rationals (43_encode.md R134 to R139): the machine's exponent, shift and fractions are those of the
value `M * 2^E`, whatever `M` and `E` hold it. So values that are the same number are packed the same, and exactly the magnitudes
below the smallest subnormal are flushed (R136). -/

namespace Sys2Proof.Machine

/-! ### The exponent of a value -/

/-- R134: the exponent of the leading bit brackets the value. -/
theorem unbiasedExp_bounds {M : Nat} (h : 0 < M) (E : ℤ) :
    (2 : ℚ) ^ unbiasedExp M E ≤ M * 2 ^ E ∧ (M : ℚ) * 2 ^ E < 2 ^ (unbiasedExp M E + 1) := by
  have lo : ((2 ^ Nat.log2 M : ℕ) : ℚ) ≤ M := by exact_mod_cast Nat.log2_self_le h.ne'
  have hi : (M : ℚ) < (2 ^ (Nat.log2 M + 1) : ℕ) := by exact_mod_cast Nat.lt_log2_self
  have hsucc : unbiasedExp M E + 1 = ((Nat.log2 M + 1 : ℕ) : ℤ) + E := by
    rw [unbiasedExp]
    push_cast
    ring
  push_cast at lo hi
  rw [hsucc, unbiasedExp, zpow_add₀ two_ne_zero, zpow_add₀ two_ne_zero, zpow_natCast, zpow_natCast]
  constructor <;> gcongr

/-- A value lies below a power of two exactly when its exponent does. -/
theorem magnitude_lt_two_zpow_iff {M : Nat} (h : 0 < M) (E k : ℤ) :
    (M : ℚ) * 2 ^ E < 2 ^ k ↔ unbiasedExp M E < k := by
  obtain ⟨lo, hi⟩ := unbiasedExp_bounds h E
  constructor
  · intro hlt
    exact (zpow_lt_zpow_iff_right₀ one_lt_two).1 (lo.trans_lt hlt)
  · intro hlt
    exact hi.trans_le (zpow_le_zpow_right₀ one_le_two hlt)

/-- R134: no other exponent brackets the value. -/
theorem eq_unbiasedExp_of_bounds {M : Nat} {E e : ℤ} (h : 0 < M) (lo : (2 : ℚ) ^ e ≤ M * 2 ^ E)
    (hi : (M : ℚ) * 2 ^ E < 2 ^ (e + 1)) : e = unbiasedExp M E := by
  have hge : ¬ unbiasedExp M E < e := by
    rw [← magnitude_lt_two_zpow_iff h]
    exact lo.not_gt
  have hle : unbiasedExp M E < e + 1 := (magnitude_lt_two_zpow_iff h E (e + 1)).1 hi
  omega

/-- R134: the normalized mantissa `m = v / 2^e` is `M` with its leading one moved to the units. -/
theorem magnitude_div_two_zpow_unbiasedExp (M : Nat) (E : ℤ) :
    (M : ℚ) * 2 ^ E / 2 ^ unbiasedExp M E = M / 2 ^ Nat.log2 M := by
  rw [unbiasedExp, zpow_add₀ two_ne_zero, zpow_natCast, mul_div_mul_right _ _ (zpow_ne_zero _ two_ne_zero)]

/-! ### The machine's fractions are the roundings of R137 and R138 -/

theorem subnormalFraction_eq_rneRat (f : Fmt) (M shift : Nat) :
    (subnormalFraction f M shift : ℤ) = rneRat ((M : ℚ) / 2 ^ Nat.log2 M * 2 ^ f.fracBits / 2 ^ shift) := by
  rw [subnormalFraction, roundingIsHalfToEven _ _ (Nat.two_pow_pos _)]
  congr 1
  push_cast
  rw [pow_add, div_mul_eq_mul_div, div_div]

theorem normalFraction_eq_rneRat (f : Fmt) {M : Nat} (h : 0 < M) :
    (normalFraction f M : ℤ) = rneRat (((M : ℚ) / 2 ^ Nat.log2 M - 1) * 2 ^ f.fracBits) := by
  rw [normalFraction, roundingIsHalfToEven _ _ (Nat.two_pow_pos _)]
  congr 1
  push_cast [Nat.cast_sub (Nat.log2_self_le h.ne')]
  field_simp

/-- The subnormal branch of R139 (R136, R137) over the integers. -/
theorem packSubnormal_cast (f : Fmt) (s : Bool) (M shift : Nat) :
    (packSubnormal f s M shift : ℤ) =
      if (f.fracBits : ℤ) < shift then (signPattern f s : ℤ)
      else signPattern f s + rneRat ((M : ℚ) / 2 ^ Nat.log2 M * 2 ^ f.fracBits / 2 ^ shift) := by
  rw [← subnormalFraction_eq_rneRat, packSubnormal]
  norm_cast

/-- The normal branch of R139 (R138) over the integers, the carry into infinity included. -/
theorem packNormal_cast (f : Fmt) (s : Bool) {M : Nat} (h : 0 < M) (biased : Nat) :
    (packNormal f s M biased : ℤ) =
      if (f.emaxField : ℤ) * 2 ^ f.fracBits ≤
          biased * 2 ^ f.fracBits + rneRat (((M : ℚ) / 2 ^ Nat.log2 M - 1) * 2 ^ f.fracBits) then
        signPattern f s + (f.emaxField : ℤ) * 2 ^ f.fracBits
      else signPattern f s + (biased * 2 ^ f.fracBits + rneRat (((M : ℚ) / 2 ^ Nat.log2 M - 1) * 2 ^ f.fracBits)) := by
  rw [← normalFraction_eq_rneRat f h, packNormal, infPattern]
  norm_cast

/-- R139 with the exponent the machine computes, by the three ranges of `e + BIAS` (R135 to R138). -/
theorem packFinite_eq_packFiniteRat (f : Fmt) (s : Bool) {M : Nat} (h : 0 < M) (E : ℤ) :
    (packFinite f s M E : ℤ) = packFiniteRat f s ((M : ℚ) * 2 ^ E) (unbiasedExp M E) := by
  rw [packFiniteRat, magnitude_div_two_zpow_unbiasedExp]
  by_cases hover : (f.emaxField : ℤ) ≤ unbiasedExp M E + f.bias
  · rw [packFinite_of_overflow hover, if_pos hover, infPattern]
    norm_cast
  · rw [if_neg hover]
    by_cases hsmall : unbiasedExp M E + f.bias ≤ 0
    · obtain ⟨shift, hshift⟩ := Int.eq_ofNat_of_zero_le (by omega : 0 ≤ 1 - (unbiasedExp M E + f.bias))
      rw [packFinite_of_small hsmall, if_pos hsmall, hshift, Int.toNat_natCast, zpow_natCast, packSubnormal_cast]
    · obtain ⟨biased, hbiased⟩ := Int.eq_ofNat_of_zero_le (not_le.1 hsmall).le
      rw [packFinite_of_normal (not_le.1 hsmall) (not_le.1 hover), if_neg hsmall, hbiased, Int.toNat_natCast,
        packNormal_cast f s h]

/-- Settles O28: the patterns of NaN, infinity and zero are the machine's own sums, and the exponent that brackets a finite value is
the machine's. -/
theorem packingFollowsTheRationalAlgorithm : Obligations.PackingFollowsTheRationalAlgorithm := by
  intro f s
  refine ⟨rfl, rfl, rfl, fun M E e h lo hi => ?_⟩
  rw [roundPack, eq_unbiasedExp_of_bounds h lo hi, packFinite_eq_packFiniteRat f s h]

/-! ### Values that are the same number -/

/-- A value is the same as another when it is that value, or when both hold the same finite number (R11). -/
theorem eq_or_fin_of_same {x y : Value} (h : x.same y) :
    x = y ∨ ∃ s M E N F, x = .fin s M E ∧ y = .fin s N F ∧ (M : ℚ) * 2 ^ E = N * 2 ^ F := by
  unfold Value.same at h
  split at h
  case h_2 s M E t N F =>
    obtain ⟨rfl, hv⟩ := h
    exact .inr ⟨s, M, E, N, F, rfl, rfl, hv⟩
  case h_5 => exact h.elim
  all_goals exact .inl (congrArg _ h)

theorem same_refl (x : Value) : x.same x := by
  cases x <;> simp [Value.same]

/-- `RoundPack` reads the number, not the `M` and `E` that hold it (R139). -/
theorem packFinite_congr (f : Fmt) (s : Bool) {M N : Nat} {E F : ℤ} (hM : 0 < M) (hN : 0 < N)
    (h : (M : ℚ) * 2 ^ E = N * 2 ^ F) : packFinite f s M E = packFinite f s N F := by
  obtain ⟨lo, hi⟩ := unbiasedExp_bounds hM E
  have hexp : unbiasedExp M E = unbiasedExp N F := eq_unbiasedExp_of_bounds hN (h ▸ lo) (h ▸ hi)
  zify
  rw [packFinite_eq_packFiniteRat f s hM, packFinite_eq_packFiniteRat f s hN, hexp, h]

theorem roundPack_congr (f : Fmt) {x y : Value} (hx : x.wellFormed = true) (hy : y.wellFormed = true) (h : x.same y) :
    roundPack f x = roundPack f y := by
  rcases eq_or_fin_of_same h with rfl | ⟨s, M, E, N, F, rfl, rfl, hv⟩
  · rfl
  · exact packFinite_congr f s (of_decide_eq_true hx) (of_decide_eq_true hy) hv

/-! ### The flush to signed zero -/

theorem signPattern_eq_packFields (f : Fmt) (s : Bool) : signPattern f s = packFields f ⟨s, 0, 0⟩ := by
  simp [signPattern, packFields]

theorem infPattern_eq_packFields (f : Fmt) (s : Bool) : infPattern f s = packFields f ⟨s, f.emaxField, 0⟩ := rfl

theorem nanPattern_eq_packFields (f : Fmt) (s : Bool) : nanPattern f s = packFields f ⟨s, f.emaxField, f.qbit⟩ := rfl

/-- Settles O29: the sums of R139 are the packed fields of R131 to R133. -/
theorem specialValuesArePackedWithTheirSign : Obligations.SpecialValuesArePackedWithTheirSign :=
  ⟨fun f s => ⟨nanPattern_eq_packFields f s, infPattern_eq_packFields f s, signPattern_eq_packFields f s⟩,
    rfl, rfl, rfl, rfl, rfl, rfl⟩

/-- R137: a shift within the fraction leaves at least one unit. -/
theorem subnormalFraction_pos {f : Fmt} {M shift : Nat} (h : 0 < M) (hshift : shift ≤ f.fracBits) :
    0 < subnormalFraction f M shift := by
  have hle : 2 ^ (Nat.log2 M + shift) ≤ M * 2 ^ f.fracBits := by
    rw [pow_add]
    exact Nat.mul_le_mul (Nat.log2_self_le h.ne') (Nat.pow_le_pow_right two_pos hshift)
  exact (Nat.div_pos hle (Nat.two_pow_pos _)).trans_le (div_le_rne _ _)

/-- R136: below the normal range, signed zero comes of the flush alone. -/
theorem packSubnormal_eq_signPattern_iff (f : Fmt) (s : Bool) {M : Nat} (h : 0 < M) (shift : Nat) :
    packSubnormal f s M shift = signPattern f s ↔ f.fracBits < shift := by
  rw [packSubnormal]
  split_ifs with hflush
  · exact iff_of_true rfl hflush
  · have hpos := subnormalFraction_pos h (not_lt.1 hflush)
    exact iff_of_false (by omega) hflush

theorem infPattern_ne_signPattern (f : Fmt) (s : Bool) : infPattern f s ≠ signPattern f s := by
  have hpos : 0 < f.emaxField * 2 ^ f.fracBits := Nat.mul_pos (emaxField_pos f) (Nat.two_pow_pos _)
  rw [infPattern]
  omega

/-- R138: a normal has a nonzero exponent field. -/
theorem packNormal_ne_signPattern (f : Fmt) (s : Bool) (M : Nat) {biased : Nat} (h : 0 < biased) :
    packNormal f s M biased ≠ signPattern f s := by
  have hpos : 0 < biased * 2 ^ f.fracBits := Nat.mul_pos h (Nat.two_pow_pos _)
  rw [packNormal]
  split_ifs
  · exact infPattern_ne_signPattern f s
  · omega

/-- R136: a finite value is flushed exactly when its exponent lies below that of the smallest subnormal. -/
theorem packFinite_eq_signPattern_iff (f : Fmt) (s : Bool) {M : Nat} (h : 0 < M) (E : ℤ) :
    packFinite f s M E = signPattern f s ↔ unbiasedExp M E < f.minSubnormalExp := by
  have hpos : 0 < f.emaxField := emaxField_pos f
  rw [Fmt.minSubnormalExp]
  rcases lt_or_ge 0 (unbiasedExp M E + f.bias) with lo | hsmall
  · have hne : packFinite f s M E ≠ signPattern f s := by
      rcases lt_or_ge (unbiasedExp M E + f.bias) f.emaxField with hi | hover
      · rw [packFinite_of_normal lo hi]
        exact packNormal_ne_signPattern f s M (by omega)
      · rw [packFinite_of_overflow hover]
        exact infPattern_ne_signPattern f s
    exact iff_of_false hne (by omega)
  · rw [packFinite_of_small hsmall, packSubnormal_eq_signPattern_iff f s h]
    omega

/-- Settles O30: the exponent lies below that of the smallest subnormal exactly when the value does. -/
theorem belowTheSmallestSubnormalFlushes : Obligations.BelowTheSmallestSubnormalFlushes := by
  intro f s M E h
  rw [roundPack, ← signPattern_eq_packFields, packFinite_eq_signPattern_iff f s h, magnitude_lt_two_zpow_iff h]
  rfl

end Sys2Proof.Machine
end

section
/-! SUPPORT. The encoder ENC (43_encode.md R130, R142, R143, R156): for a format that is its own native format it is the decoder. -/

namespace Sys2Proof.Machine

/-- R130 and R114 for a format that is its own native format: ENC reads the operand DEC reads and packs it in the same format. -/
theorem exec_enc_eq_exec_dec_of_native_eq {f : Fmt} (h : f.native = f) (s : State) :
    exec (Instr.of .enc f) s = exec (Instr.of .dec f) s := by
  simp only [exec_eq_answer, resultOf, func_of, fmt_of, encodeOut, decodeOut, nativeOperand, h]

/-- Settles O31: `N(S) = S` and `N(D) = D`, so both commands answer what DEC.S and DEC.D answer. -/
theorem encSAndEncDAreTheIdentityOffNaN : Obligations.EncSAndEncDAreTheIdentityOffNaN := by
  intro s
  obtain ⟨hS, hD⟩ := decSAndDecDAreTheIdentityOffNaN s
  exact ⟨(exec_enc_eq_exec_dec_of_native_eq (f := .s) rfl s).trans hS,
    (exec_enc_eq_exec_dec_of_native_eq (f := .d) rfl s).trans hD⟩

end Sys2Proof.Machine
end

section
/-! SUPPORT. Decoding keeps the value (R114): a format that is its own native format gives the pattern back, and every finite value of
binary16 is a normal of binary32 with no bit lost. -/

namespace Sys2Proof.Machine

/-! ### Decoding reads the low `W` bits -/

/-- The `b` bits from bit `a` lie within the low `n` bits (R9). -/
theorem mod_two_pow_div_mod {a b n : Nat} (p : Nat) (h : a + b ≤ n) : p % 2 ^ n / 2 ^ a % 2 ^ b = p / 2 ^ a % 2 ^ b := by
  have hn : 2 ^ n = 2 ^ a * (2 ^ b * 2 ^ (n - (a + b))) := by
    rw [← Nat.mul_assoc, ← pow_add, ← pow_add, Nat.add_sub_cancel' h]
  rw [hn, Nat.mod_mul_right_div_self, Nat.mod_mul_right_mod]

/-- Patterns with the same sign bit, exponent and fraction have the same fields. -/
theorem fields_ext {x y : Fields} (hs : x.sign.toNat = y.sign.toNat) (hE : x.exp = y.exp) (hF : x.frac = y.frac) :
    x = y := by
  cases x
  cases y
  rw [Fields.mk.injEq]
  exact ⟨boolToNat_injective hs, hE, hF⟩

theorem fieldsOf_mod (f : Fmt) (p : Nat) {n : Nat} (h : f.width ≤ n) : fieldsOf f (p % 2 ^ n) = fieldsOf f p := by
  have hsplit := width_sub_one f
  have hpos := width_eq f
  apply fields_ext
  · have hbit := mod_two_pow_div_mod (b := 1) p (by omega : f.width - 1 + 1 ≤ n)
    rw [pow_one] at hbit
    rw [fieldsOf_sign_toNat, fieldsOf_sign_toNat, hbit]
  · rw [fieldsOf_exp, fieldsOf_exp, mod_two_pow_div_mod p (by omega)]
  · rw [fieldsOf_frac, fieldsOf_frac, Nat.mod_mod_of_dvd _ (pow_dvd_pow 2 (by omega))]

theorem decodeValue_mod (f : Fmt) (p : Nat) {n : Nat} (h : f.width ≤ n) :
    decodeValue f (p % 2 ^ n) = decodeValue f p := by
  simp only [decodeValue, fieldsOf_mod f p h]

theorem width_le (f : Fmt) : f.width ≤ 64 := by
  cases f <;> decide

/-! ### The special patterns -/

theorem qbit_lt (f : Fmt) : f.qbit < 2 ^ f.fracBits := by
  cases f <;> decide

theorem emaxField_lt (f : Fmt) : f.emaxField < 2 ^ f.expBits := Nat.sub_lt (Nat.two_pow_pos _) one_pos

theorem fieldsOf_nanPattern (f : Fmt) (s : Bool) : fieldsOf f (nanPattern f s) = ⟨s, f.emaxField, f.qbit⟩ := by
  rw [nanPattern_eq_packFields, fieldsOf_packFields (emaxField_lt f) (qbit_lt f)]

theorem fieldsOf_infPattern (f : Fmt) (s : Bool) : fieldsOf f (infPattern f s) = ⟨s, f.emaxField, 0⟩ := by
  rw [infPattern_eq_packFields, fieldsOf_packFields (emaxField_lt f) (Nat.two_pow_pos _)]

theorem fieldsOf_signPattern (f : Fmt) (s : Bool) : fieldsOf f (signPattern f s) = ⟨s, 0, 0⟩ := by
  rw [signPattern_eq_packFields, fieldsOf_packFields (Nat.two_pow_pos _) (Nat.two_pow_pos _)]

theorem qbit_ne_zero (f : Fmt) : f.qbit ≠ 0 := (Nat.two_pow_pos _).ne'

theorem classOf_nanPattern (f : Fmt) (s : Bool) : classOf f (nanPattern f s) = .nan := by
  simp [classOf, fieldsOf_nanPattern, qbit_ne_zero]

theorem decodeValue_nanPattern (f : Fmt) (s : Bool) : decodeValue f (nanPattern f s) = .nan s := by
  simp [decodeValue, fieldsOf_nanPattern, qbit_ne_zero]

theorem decodeValue_infPattern (f : Fmt) (s : Bool) : decodeValue f (infPattern f s) = .inf s := by
  simp [decodeValue, fieldsOf_infPattern]

theorem decodeValue_signPattern (f : Fmt) (s : Bool) : decodeValue f (signPattern f s) = .zero s := by
  simp [decodeValue, fieldsOf_signPattern, (emaxField_pos f).ne]

/-! ### DEC keeps the value -/

/-- R114 for a format that is its own native format: off NaN the pattern itself comes back, and a NaN has only its sign. -/
theorem same_decodeValue_decodeOut_of_native_eq {f : Fmt} (h : f.native = f) (p : Nat) :
    (decodeValue f.native (decodeOut f p)).same (decodeValue f p) := by
  rw [decodeOut, h]
  by_cases hnan : classOf f p = .nan
  · rw [decodeValue_of_classOf_nan hnan, roundPack, decodeValue_nanPattern]
    exact same_refl _
  · rw [roundPack_decodeValue hnan, decodeValue_mod f p le_rfl]
    exact same_refl _

/-- The leading one and the bits below it, moved to the top of the fraction, are the mantissa `M / 2^(log2 M)` (R138). -/
theorem one_add_exactFraction {f : Fmt} {M : Nat} (h : 0 < M) (hM : Nat.log2 M ≤ f.fracBits) :
    1 + (((M - 2 ^ Nat.log2 M) * 2 ^ (f.fracBits - Nat.log2 M) : ℕ) : ℚ) / 2 ^ f.fracBits = M / 2 ^ Nat.log2 M := by
  have hpow : (2 : ℚ) ^ f.fracBits = 2 ^ Nat.log2 M * 2 ^ (f.fracBits - Nat.log2 M) := by
    rw [← pow_add, Nat.add_sub_cancel' hM]
  push_cast [Nat.cast_sub (Nat.log2_self_le h.ne'), hpow]
  field_simp
  ring

/-- A value the normal range of a format holds exactly is the value of the pattern it is packed as. -/
theorem same_decodeValue_packFinite_exact_normal {f : Fmt} {s : Bool} {M E : Nat} {X : Int} (h : 0 < M)
    (hM : Nat.log2 M ≤ f.fracBits) (hE : unbiasedExp M X + f.bias = E) (lo : 0 < E) (hi : E < f.emaxField) :
    (decodeValue f (packFinite f s M X)).same (.fin s M X) := by
  obtain ⟨-, -, -, -, hnormal⟩ := decodedValuesFollowTheFormulas f s E _ (hi.trans (emaxField_lt f)) (exactFraction_lt hM)
  obtain ⟨N, Y, hd, hv⟩ := hnormal lo hi
  rw [packFinite_exact_normal hM hE lo hi, hd]
  refine ⟨rfl, hv.trans ?_⟩
  rw [one_add_exactFraction h hM, ← magnitude_div_two_zpow_unbiasedExp M X, ← hE, add_sub_cancel_right]
  exact div_mul_cancel₀ _ (zpow_ne_zero _ two_ne_zero)

/-- R114 for binary16: infinities, NaNs and zeros keep their sign, and a finite value is a normal of binary32. -/
theorem same_decodeValue_decodeOut_h (p : Nat) : (decodeValue .s (decodeOut .h p)).same (decodeValue .h p) := by
  have hF : (fieldsOf .h p).frac < 2 ^ Fmt.fracBits .h := fieldsOf_frac_lt .h p
  rw [decodeOut, show Fmt.native .h = .s from rfl]
  rcases decodeValue_cases .h p with ⟨-, -, hd⟩ | ⟨-, -, hd⟩ | ⟨-, -, hd⟩ | ⟨-, h0, hd⟩ | ⟨lo, hi, hd⟩ <;> rw [hd, roundPack]
  · rw [decodeValue_infPattern]
    exact same_refl _
  · rw [decodeValue_nanPattern]
    exact same_refl _
  · rw [decodeValue_signPattern]
    exact same_refl _
  · have hlog : Nat.log2 (fieldsOf .h p).frac < 10 := (Nat.log2_lt h0).2 hF
    apply same_decodeValue_packFinite_exact_normal (E := Nat.log2 (fieldsOf .h p).frac + 103) (by omega)
      (hlog.le.trans (by decide)) ?_ (by omega) (lt_trans (by omega : _ < 113) (by decide))
    simp only [unbiasedExp, Fmt.minSubnormalExp, Fmt.bias, Fmt.fracBits]
    omega
  · have hlog := log2_two_pow_add hF
    have hmax : (fieldsOf .h p).exp < 31 := hi
    apply same_decodeValue_packFinite_exact_normal (E := (fieldsOf .h p).exp + 112) (Nat.add_pos_left (Nat.two_pow_pos _) _)
      (hlog.le.trans (by decide)) ?_ (by omega) (lt_trans (by omega : _ < 143) (by decide))
    rw [unbiasedExp, hlog]
    simp only [Fmt.bias, Fmt.fracBits]
    omega

/-- R114: decoding is exact. -/
theorem same_decodeValue_decodeOut (f : Fmt) (p : Nat) : (decodeValue f.native (decodeOut f p)).same (decodeValue f p) := by
  cases f
  case h => exact same_decodeValue_decodeOut_h p
  all_goals exact same_decodeValue_decodeOut_of_native_eq rfl p

end Sys2Proof.Machine
end

section
/-! SUPPORT. The round trips (43_encode.md R150 to R155). The pattern DEC drives stands for the value of its operand (R114), and ENC
reads that value alone; so ENC after DEC packs the operand's value in the operand's own format. -/

namespace Sys2Proof.Machine

/-! ### ENC after DEC -/

/-- ENC of what DEC drove packs the operand's value in the operand's format: the same number, held by another pattern. -/
theorem encodeOut_decodeOut (f : Fmt) (p : Nat) : encodeOut f (decodeOut f p) = roundPack f (decodeValue f p) :=
  roundPack_congr f (decodeValue_wellFormed _ _) (decodeValue_wellFormed _ _) (same_decodeValue_decodeOut f p)

/-- R130: ENC of a result driven on `y` and given back on `a`. -/
theorem encodeOut_nativeOperand_ofNat (f : Fmt) (x : Nat) :
    encodeOut f (nativeOperand f (BitVec.ofNat 64 x)) = encodeOut f x := by
  rw [encodeOut, encodeOut, nativeOperand_eq_mod, decodeValue_mod _ _ le_rfl, BitVec.toNat_ofNat,
    decodeValue_mod _ _ (width_le _)]

theorem exec_dec_eq_decodeCommand (f : Fmt) (s : State) : exec (Instr.of .dec f) s = .next (decodeCommand f s) :=
  exec_dec f s

theorem exec_enc_eq_encodeCommand (f : Fmt) (s : State) : exec (Instr.of .enc f) s = .next (encodeCommand f s) := by
  cases f <;> rfl

/-- ENC on the ports as the host leaves them when it drives DEC's result as the operand. -/
def encodeDecoded (f : Fmt) (s : State) : State := encodeCommand f { decodeCommand f s with a := (decodeCommand f s).y }

theorem exec_enc_after_dec (f : Fmt) (s : State) :
    exec (Instr.of .enc f) { decodeCommand f s with a := (decodeCommand f s).y } = .next (encodeDecoded f s) :=
  exec_enc_eq_encodeCommand f _

/-- R151 before the cases: the operand's value, packed in the operand's format. -/
theorem encodeDecoded_y (f : Fmt) (s : State) :
    (encodeDecoded f s).y = BitVec.ofNat 64 (roundPack f (decodeValue f (patternOperand f s.a))) := by
  rw [encodeDecoded, encodeCommand, answer_y, decodeCommand, answer_y, encodeOut_nativeOperand_ofNat, encodeOut_decodeOut]

theorem toNat_ofNat_of_lt_width {f : Fmt} {r : Nat} (h : r < 2 ^ f.width) : (BitVec.ofNat 64 r).toNat = r := by
  rw [BitVec.toNat_ofNat, Nat.mod_eq_of_lt (h.trans_le (Nat.pow_le_pow_right two_pos (width_le f)))]

/-- R151 off NaN: the operand comes back. -/
theorem encodeDecoded_y_of_ne_nan {f : Fmt} {s : State} (h : classOf f (patternOperand f s.a) ≠ .nan) :
    (encodeDecoded f s).y.toNat = patternOperand f s.a := by
  rw [encodeDecoded_y, roundPack_decodeValue h, Nat.mod_eq_of_lt (patternOperand_lt f s.a),
    toNat_ofNat_of_lt_width (patternOperand_lt f s.a)]

theorem nanPattern_lt (f : Fmt) (s : Bool) : nanPattern f s < 2 ^ f.width := by
  cases f <;> cases s <;> decide

/-- R151 on a NaN: the canonical NaN with its sign. -/
theorem encodeDecoded_y_of_nan {f : Fmt} {s : State} (h : classOf f (patternOperand f s.a) = .nan) :
    (encodeDecoded f s).y.toNat = nanPattern f (s.a.getLsbD (f.width - 1)) := by
  rw [encodeDecoded_y, decodeValue_of_classOf_nan h, roundPack, fieldsOf_patternOperand_sign_eq_getLsbD,
    toNat_ofNat_of_lt_width (nanPattern_lt f _)]

theorem canonicalPattern_of_ne_nan {f : Fmt} {p : Nat} (h : classOf f p ≠ .nan) : canonicalPattern f p = true := by
  simp [canonicalPattern, h]

/-- R150: a canonical NaN is told by its sign. -/
theorem eq_nanPattern_of_canonicalPattern {f : Fmt} {p : Nat} (hc : canonicalPattern f p = true) (h : classOf f p = .nan) :
    p = nanPattern f (fieldsOf f p).sign := by
  have hp : p = nanPattern f false ∨ p = nanPattern f true := by simpa [canonicalPattern, h] using hc
  rcases hp with rfl | rfl <;> rw [fieldsOf_nanPattern]

/-- Settles O33: off NaN every pattern is canonical and comes back; a NaN comes back as the canonical one with its sign, which is
the operand itself when the operand is canonical. -/
theorem encodeAfterDecodeIsTheIdentity : Obligations.EncodeAfterDecodeIsTheIdentity := by
  intro f s
  refine ⟨_, _, exec_dec_eq_decodeCommand f s, exec_enc_after_dec f s, ?_⟩
  rw [← patternOperand_eq_mod]
  by_cases hnan : classOf f (patternOperand f s.a) = .nan
  · rw [encodeDecoded_y_of_nan hnan, ← fieldsOf_patternOperand_sign_eq_getLsbD]
    exact ⟨fun hc => (eq_nanPattern_of_canonicalPattern hc hnan).symm, fun _ => rfl⟩
  · rw [encodeDecoded_y_of_ne_nan hnan, canonicalPattern_of_ne_nan hnan]
    exact ⟨fun _ => rfl, fun hc => nomatch hc⟩

/-- Settles O34: ENC gives the operand back, so the second DEC reads what the first one read. -/
theorem decodeAfterEncodeAfterDecode : Obligations.DecodeAfterEncodeAfterDecode := by
  intro f s hnan
  rw [← patternOperand_eq_mod] at hnan
  have hback : patternOperand f (encodeDecoded f s).y = patternOperand f s.a := by
    rw [patternOperand_eq_mod, encodeDecoded_y_of_ne_nan hnan, Nat.mod_eq_of_lt (patternOperand_lt f s.a)]
  refine ⟨_, _, _, exec_dec_eq_decodeCommand f s, exec_enc_after_dec f s, exec_dec_eq_decodeCommand f _, ?_⟩
  rw [decodeCommand, answer_y, hback, decodeCommand, answer_y]

/-! ### NaNs, zeros and the smallest subnormal -/

/-- R112: DEC of a NaN drives the canonical NaN of the native format with its sign. -/
theorem decodeCommand_y_of_nan {f : Fmt} {s : State} (h : classOf f (patternOperand f s.a) = .nan) :
    (decodeCommand f s).y.toNat = nanPattern f.native (s.a.getLsbD (f.width - 1)) := by
  rw [decodeCommand, answer_y, decodeOut, decodeValue_of_classOf_nan h, roundPack, fieldsOf_patternOperand_sign_eq_getLsbD,
    toNat_ofNat_of_lt_width (nanPattern_lt f.native _)]

/-- Settles O35: both results are canonical NaNs, whose fraction is `QBIT` alone. -/
theorem naNRoundTripIsQuietWithItsSign : Obligations.NaNRoundTripIsQuietWithItsSign := by
  intro f s hnan
  rw [← patternOperand_eq_mod] at hnan
  refine ⟨_, _, exec_dec_eq_decodeCommand f s, exec_enc_after_dec f s, ?_⟩
  rw [decodeCommand_y_of_nan hnan, encodeDecoded_y_of_nan hnan]
  simp only [classOf_nanPattern, fieldsOf_nanPattern, le_refl, and_self]

theorem signPattern_lt (f : Fmt) (s : Bool) : signPattern f s < 2 ^ f.width := by
  cases f <;> cases s <;> decide

theorem signPattern_true (f : Fmt) : signPattern f true = 2 ^ (f.width - 1) := Nat.one_mul _

/-- Settles O36: the sign bit alone is the negative zero of every format, and packing a zero gives its sign bit (R133). -/
theorem signOfZeroSurvives : Obligations.SignOfZeroSurvives := by
  intro f s hzero
  rw [← patternOperand_eq_mod, ← signPattern_true] at hzero
  have hdecoded : decodeValue f (patternOperand f s.a) = .zero true := by rw [hzero, decodeValue_signPattern]
  refine ⟨_, _, exec_dec_eq_decodeCommand f s, ?_, exec_enc_after_dec f s, ?_⟩
  · rw [decodeCommand, answer_y, decodeOut, hdecoded, roundPack, toNat_ofNat_of_lt_width (signPattern_lt f.native true),
      signPattern_true]
  · rw [encodeDecoded_y, hdecoded, roundPack, toNat_ofNat_of_lt_width (signPattern_lt f true), signPattern_true]

/-- R6: every nonzero finite value of a format is at least its smallest subnormal. -/
theorem zero_or_minSubnormal_le_magnitude {f : Fmt} {p : Nat} {v : ℚ} (h : (decodeValue f p).magnitude? = some v) :
    v = 0 ∨ 2 ^ f.minSubnormalExp ≤ v := by
  rcases decodeValue_cases f p with ⟨-, -, hd⟩ | ⟨-, -, hd⟩ | ⟨-, -, hd⟩ | ⟨-, h0, hd⟩ | ⟨lo, -, hd⟩ <;> rw [hd] at h
  · cases h
  · cases h
  · exact .inl (Option.some.inj h).symm
  · obtain rfl := Option.some.inj h
    have hone : (1 : ℚ) ≤ (fieldsOf f p).frac := by exact_mod_cast Nat.one_le_iff_ne_zero.2 h0
    exact .inr (le_mul_of_one_le_left (by positivity) hone)
  · obtain rfl := Option.some.inj h
    refine .inr (le_trans ?_ (minNormal_le_normal lo _))
    exact zpow_le_zpow_right₀ one_le_two (by rw [Fmt.minSubnormalExp, Fmt.minNormalExp]; omega)

theorem native_eq_of_ne_h {f : Fmt} (h : f ≠ .h) : f.native = f := by
  cases f
  case h => exact absurd rfl h
  all_goals rfl

/-- R80: the pattern `{0, 0, 1}` is no NaN in any format. -/
theorem classOf_one (f : Fmt) : classOf f 1 = .subnormal := by
  cases f <;> decide

/-- R141: ENC.H reads the low 32 bits of the port. -/
theorem exec_encH_of_operand {s : State} {x : Nat} (h : s.a.toNat % 2 ^ 32 = x) :
    exec .encH s = .next { s with y := BitVec.ofNat 64 (encodeOut .h x), ill := false } := by
  have hx : nativeOperand .h s.a = x := (nativeOperand_eq_mod .h s.a).trans h
  rw [← hx]
  rfl

/-- R136: `0x337FFFFF` and `0xB37FFFFF` are just below `2^-24` in magnitude, and are flushed. -/
theorem encodeOut_h_below_minSubnormal : encodeOut .h 0x337FFFFF = 0x0000 ∧ encodeOut .h 0xB37FFFFF = 0x8000 := by
  decide

/-- Settles O37: R151 on the pattern 1; the two patterns just below `2^-24`; and S and D are their own native formats. -/
theorem smallestSubnormalBoundary : Obligations.SmallestSubnormalBoundary := by
  obtain ⟨hpos, hneg⟩ := encodeOut_h_below_minSubnormal
  refine ⟨fun f s hone => ?exact, fun s h => hpos ▸ exec_encH_of_operand h, fun s h => hneg ▸ exec_encH_of_operand h,
    fun f p v hf hv => ?none⟩
  case exact =>
    rw [← patternOperand_eq_mod] at hone
    have hnan : classOf f (patternOperand f s.a) ≠ .nan := by
      rw [hone, classOf_one]
      decide
    refine ⟨_, _, exec_dec_eq_decodeCommand f s, exec_enc_after_dec f s, BitVec.eq_of_toNat_eq ?_⟩
    rw [encodeDecoded_y_of_ne_nan hnan, hone]
    rfl
  case none =>
    rw [native_eq_of_ne_h hf] at hv
    exact zero_or_minSubnormal_le_magnitude hv

end Sys2Proof.Machine
end

section
/-! SUPPORT. Exceptions (60_exceptions.md R160): no command raises one, whatever its operand. -/

namespace Sys2Proof.Machine

/-- Settles O11: every command is one `answer`, which clears `ill` and leaves `op` and `a` as the host drives them. -/
theorem everyCommandCompletes : Obligations.EveryCommandCompletes := by
  intro i s
  exact ⟨answer (resultOf i s.a) s, exec_eq_answer i s, answer_ill _ s, answer_op _ s, answer_a _ s⟩

end Sys2Proof.Machine
end

section
/-! SUPPORT. The step leaves settled ports (10_state.md R21, R33): both outputs are written by the top-level function of the inputs. -/

namespace Sys2Proof.Machine

/-- R68 as an equation. -/
theorem step_eq_topLevel (s : State) :
    step s = .next { s with y := (topLevel s.op s.a).1, ill := (topLevel s.op s.a).2 } :=
  stepIsTheTopLevelFunction s

/-- Settles O2: the one next state of R68 has the outputs of the top-level function and the inputs as driven. -/
theorem everyStepSettlesTheOutputs : Obligations.EveryStepSettlesTheOutputs := by
  intro s t h
  rw [step_eq_topLevel] at h
  injection h with h
  rw [← h]
  exact ⟨rfl, rfl, rfl⟩

/-- Settles O3: the step writes the outputs that already stand on the ports. -/
theorem settledPortsAreAFixedPoint : Obligations.SettledPortsAreAFixedPoint := by
  intro s h
  rw [step_eq_topLevel, ← h]

/-- Settles O1: `op = 0` is DEC.H, which decodes the pattern 0 to the pattern 0. -/
theorem resetOutputsAreSettled : Obligations.ResetOutputsAreSettled := by
  have hzero : resultOf .decH State.reset.a = 0 := by decide
  rw [Obligations.ResetOutputsAreSettled, Settled, topLevel_of_decode_ok (i := .decH) rfl, hzero]
  rfl

/-- R21 on a legal word, in terms of the command. -/
theorem step_eq_exec {s : State} {i : Instr} (h : decode s.op = .ok i) : step s = exec i s := by
  rw [step_of_decode_ok h, exec_eq_answer]

/-- Settles O5: a command's word decodes to the command, and `withFetchWord` drives that word. -/
theorem stepRunsTheCommandOnOp : Obligations.StepRunsTheCommandOnOp := by
  refine ⟨fun s i => step_eq_exec, fun s i => ?_⟩
  have hplaced : s.withFetchWord 8 (encode i).toNat = { s with op := encode i } := by
    rw [State.withFetchWord, BitVec.ofNat_toNat, BitVec.setWidth_eq]
  rw [hplaced]
  exact step_eq_exec (decode_encode i)

end Sys2Proof.Machine
end

section
/-! SUPPORT. The opcode table (30_encoding.md R63): a row matches the word of its command and no other, and each command has one
row. -/

namespace Sys2Proof

theorem opcodeTable_row : ∀ r ∈ opcodeTable, r.mask = BitVec.allOnes 8 ∧ r.bits = encode r.instr := by decide

theorem exists_row_of_instr (i : Instr) : ∃ r ∈ opcodeTable, r.instr = i := by
  cases i <;> decide

/-- No command has two rows. -/
theorem opcodeTable_pairwise_instr_ne : opcodeTable.Pairwise fun r q => r.instr ≠ q.instr := by decide

/-- The mask takes the whole word (R60). -/
theorem row_matches_iff {r : OpcodeRow} (h : r ∈ opcodeTable) (op : CmdWord) :
    op &&& r.mask = r.bits ↔ op = encode r.instr := by
  obtain ⟨hmask, hbits⟩ := opcodeTable_row r h
  rw [hmask, hbits, BitVec.and_allOnes]

/-- R69: a command is told by its word. -/
theorem encode_injective : Function.Injective encode := by
  intro i j h
  have hdecode : decode (encode i) = .ok j := (decode_eq_ok_iff _ _).2 h
  rw [decode_encode] at hdecode
  injection hdecode

/-- Settles O9: the decoder and a row both accept the command's own word alone. -/
theorem opcodeTableIsTheDecoder : Obligations.OpcodeTableIsTheDecoder := by
  refine ⟨fun op i => ?_, ?_⟩
  · rw [decode_eq_ok_iff]
    constructor
    · intro hop
      obtain ⟨r, hr, rfl⟩ := exists_row_of_instr i
      exact ⟨r, hr, (row_matches_iff hr op).2 hop, rfl⟩
    · rintro ⟨r, hr, hmatch, rfl⟩
      exact (row_matches_iff hr op).1 hmatch
  · refine opcodeTable_pairwise_instr_ne.imp_of_mem fun {r q} hr hq hne op => ?_
    rw [row_matches_iff hr, row_matches_iff hq]
    rintro ⟨rfl, heq⟩
    exact hne (encode_injective heq)

/-- Settles O7: the 18 words are the rows of the opcode table. -/
theorem decodeReadsTheTableWords : Obligations.DecodeReadsTheTableWords := by
  have hrow (r : OpcodeRow) (hr : r ∈ opcodeTable) : decode r.bits = .ok r.instr :=
    (decode_eq_ok_iff _ _).2 (opcodeTable_row r hr).2
  simpa [opcodeTable, Obligations.DecodeReadsTheTableWords] using hrow

end Sys2Proof
end

section
/-! SUPPORT. Decoding is exact as the host sees it (42_decode.md R114). -/

namespace Sys2Proof.Machine

/-- Settles O25: `y` holds the pattern DEC drives up to bits above the native width, which `Decode` does not read. -/
theorem decodingIsExact : Obligations.DecodingIsExact := by
  intro f s
  refine ⟨_, exec_dec f s, ?_⟩
  rw [BitVec.toNat_ofNat, decodeValue_mod _ _ (width_le _), ← patternOperand_eq_mod]
  exact same_decodeValue_decodeOut f _

end Sys2Proof.Machine
end

section
/-! SUPPORT. What a command reads and what it drives (30_encoding.md R64, R65): its result is a function of the operand's low bits, and
fits the result width. A packed pattern fits its format, since no finite value is packed above infinity. -/

namespace Sys2Proof.Machine

/-! ### The operand -/

/-- R64: a result depends on the low bits of the port alone. -/
theorem resultOf_congr {i : Instr} {a b : Word} (h : a.toNat % 2 ^ operandWidth i = b.toNat % 2 ^ operandWidth i) :
    resultOf i a = resultOf i b := by
  rw [operandWidth] at h
  rw [resultOf, resultOf]
  cases hfunc : i.func
  case enc =>
    rw [hfunc] at h
    simp only [nativeOperand_eq_mod, h]
  all_goals
    rw [hfunc] at h
    simp only [patternOperand_eq_mod, h]

/-- Settles O12: both runs answer the same result. -/
theorem bitsAboveTheOperandAreIgnored : Obligations.BitsAboveTheOperandAreIgnored := by
  intro i s b h
  refine ⟨_, _, exec_eq_answer i s, exec_eq_answer i _, ?_, rfl⟩
  rw [answer_y, answer_y, resultOf_congr h]

/-! ### The result -/

/-- R137: a magnitude below the smallest normal has at most `2^FB` units, the carry to the smallest normal included. -/
theorem subnormalFraction_le (f : Fmt) (M : Nat) {shift : Nat} (h : 0 < shift) : subnormalFraction f M shift ≤ 2 ^ f.fracBits := by
  have hquot : M * 2 ^ f.fracBits / 2 ^ (Nat.log2 M + shift) < 2 ^ f.fracBits := by
    rw [Nat.div_lt_iff_lt_mul (Nat.two_pow_pos _), Nat.mul_comm]
    refine Nat.mul_lt_mul_of_pos_left ?_ (Nat.two_pow_pos _)
    exact Nat.lt_log2_self.trans_le (Nat.pow_le_pow_right two_pos (Nat.add_le_add_left h _))
  exact (rne_le _ _).trans hquot

theorem packSubnormal_le_infPattern (f : Fmt) (s : Bool) (M : Nat) {shift : Nat} (h : 0 < shift) :
    packSubnormal f s M shift ≤ infPattern f s := by
  have hfrac : subnormalFraction f M shift ≤ 2 ^ f.fracBits := subnormalFraction_le f M h
  have hmax : 2 ^ f.fracBits ≤ f.emaxField * 2 ^ f.fracBits := Nat.le_mul_of_pos_left _ (emaxField_pos f)
  rw [packSubnormal, infPattern]
  split_ifs <;> omega

theorem packNormal_le_infPattern (f : Fmt) (s : Bool) (M biased : Nat) : packNormal f s M biased ≤ infPattern f s := by
  rw [packNormal, infPattern]
  split_ifs <;> omega

/-- R135 to R138: no finite value is packed above the infinity with its sign. -/
theorem packFinite_le_infPattern (f : Fmt) (s : Bool) (M : Nat) (E : ℤ) : packFinite f s M E ≤ infPattern f s := by
  rcases lt_or_ge 0 (unbiasedExp M E + f.bias) with lo | hsmall
  · rcases lt_or_ge (unbiasedExp M E + f.bias) f.emaxField with hi | hover
    · rw [packFinite_of_normal lo hi]
      exact packNormal_le_infPattern f s M _
    · rw [packFinite_of_overflow hover]
  · rw [packFinite_of_small hsmall]
    exact packSubnormal_le_infPattern f s M (by omega)

theorem infPattern_lt (f : Fmt) (s : Bool) : infPattern f s < 2 ^ f.width :=
  (Nat.le_add_right _ _).trans_lt (nanPattern_lt f s)

/-- R139: `RoundPack` makes a pattern of its format. -/
theorem roundPack_lt (f : Fmt) (x : Value) : roundPack f x < 2 ^ f.width := by
  cases x with
  | nan s => exact nanPattern_lt f s
  | inf s => exact infPattern_lt f s
  | zero s => exact signPattern_lt f s
  | fin s M E => exact (packFinite_le_infPattern f s M E).trans_lt (infPattern_lt f s)

/-- R101: the codes fit three bits. -/
theorem NumClass.code_lt (c : NumClass) : c.code < 2 ^ 3 := by
  cases c <;> decide

/-- R65: the result fits the result width. -/
theorem resultOf_lt (i : Instr) (a : Word) : resultOf i a < 2 ^ resultWidth i := by
  rw [resultOf, resultWidth]
  cases i.func with
  | dec => exact roundPack_lt _ _
  | enc => exact roundPack_lt _ _
  | xsgn => exact Bool.toNat_lt _
  | xexp => exact fieldsOf_exp_lt _ _
  | xfrc => exact fieldsOf_frac_lt _ _
  | cls => exact NumClass.code_lt _

/-- Settles O13: `y` is the result modulo `2^64`. -/
theorem bitsAboveTheResultAreZero : Obligations.BitsAboveTheResultAreZero := by
  intro i s
  refine ⟨_, exec_eq_answer i s, ?_⟩
  rw [answer_y, BitVec.toNat_ofNat]
  exact (Nat.mod_le _ _).trans_lt (resultOf_lt i s.a)

end Sys2Proof.Machine
end

section
/-! SUPPORT. The finite range of a format (00_scope.md R6) and the exponent of a value (43_encode.md R134). -/

namespace Sys2Proof.Machine

/-- Settles O27: the machine's exponent brackets the value, and only one exponent does. -/
theorem unbiasedExponentBracketsTheValue : Obligations.UnbiasedExponentBracketsTheValue := by
  intro M E e h
  constructor
  · rintro ⟨lo, hi⟩
    exact eq_unbiasedExp_of_bounds h lo hi
  · rintro rfl
    exact unbiasedExp_bounds h E

/-- R6: the largest finite value is the normal with the largest exponent and all fraction bits set. -/
theorem largestFinite_eq (f : Fmt) :
    largestFinite f =
      ((2 ^ f.fracBits + (2 ^ f.fracBits - 1) : ℕ) : ℚ) * 2 ^ (((f.emaxField - 1 : ℕ) : ℤ) - f.bias - f.fracBits) := by
  rw [normal_magnitude_eq_formula, largestFinite, Nat.cast_sub (emaxField_pos f), Nat.cast_sub Nat.one_le_two_pow]
  push_cast
  congr 1
  field_simp
  ring

/-- A normal is largest with the largest exponent and the largest fraction. -/
theorem normal_le_largestFinite {f : Fmt} {E F : Nat} (hE : E < f.emaxField) (hF : F < 2 ^ f.fracBits) :
    ((2 ^ f.fracBits + F : ℕ) : ℚ) * 2 ^ ((E : ℤ) - f.bias - f.fracBits) ≤ largestFinite f := by
  rw [largestFinite_eq]
  gcongr
  · omega
  · exact one_le_two
  · omega

theorem one_lt_emaxField (f : Fmt) : 1 < f.emaxField := by
  cases f <;> decide

/-- R6: no finite value exceeds the largest one. -/
theorem magnitude_le_largestFinite {f : Fmt} {p : Nat} {v : ℚ} (h : (decodeValue f p).magnitude? = some v) :
    v = 0 ∨ v ≤ largestFinite f := by
  have hF : (fieldsOf f p).frac < 2 ^ f.fracBits := fieldsOf_frac_lt f p
  rcases decodeValue_cases f p with ⟨-, -, hd⟩ | ⟨-, -, hd⟩ | ⟨-, -, hd⟩ | ⟨-, -, hd⟩ | ⟨-, hi, hd⟩ <;> rw [hd] at h
  · cases h
  · cases h
  · exact .inl (Option.some.inj h).symm
  · obtain rfl := Option.some.inj h
    have hnormal := (minNormal_le_normal one_pos 0).trans (normal_le_largestFinite (one_lt_emaxField f) (Nat.two_pow_pos _))
    exact .inr ((subnormal_lt_minNormal hF).le.trans hnormal)
  · obtain rfl := Option.some.inj h
    exact .inr (normal_le_largestFinite hi hF)

/-- Settles O21: the three constants are R110's formulas at the ends of the two ranges of patterns. -/
theorem finiteRangeOfAFormat : Obligations.FiniteRangeOfAFormat := by
  intro f
  have hmax : 1 < f.emaxField := one_lt_emaxField f
  have hfrac : 1 < 2 ^ f.fracBits := Nat.one_lt_two_pow (by cases f <;> decide)
  have hformulas (E F : Nat) (hE : E ≤ f.emaxField) := decodedValuesFollowTheFormulas f false E F (hE.trans_lt (emaxField_lt f))
  refine ⟨?minSubnormal, ?minNormal, ?largest, fun p v _ hv => ?range⟩
  case minSubnormal =>
    obtain ⟨-, -, -, hsubnormal, -⟩ := hformulas 0 1 (Nat.zero_le _) hfrac
    obtain ⟨M, X, hd, hv⟩ := hsubnormal rfl one_ne_zero
    rw [hd, Value.magnitude?, hv, Nat.cast_one, one_mul]
  case minNormal =>
    obtain ⟨-, -, -, -, hnormal⟩ := hformulas 1 0 hmax.le (Nat.two_pow_pos _)
    obtain ⟨M, X, hd, hv⟩ := hnormal one_pos hmax
    rw [hd, Value.magnitude?, hv]
    simp
  case largest =>
    obtain ⟨-, -, -, -, hnormal⟩ := hformulas (f.emaxField - 1) (2 ^ f.fracBits - 1) (Nat.sub_le _ _) (by omega)
    obtain ⟨M, X, hd, hv⟩ := hnormal (by omega) (by omega)
    rw [hd, Value.magnitude?, hv, ← normal_magnitude_eq_formula, largestFinite_eq]
  case range =>
    rcases zero_or_minSubnormal_le_magnitude hv with rfl | hlo
    · exact .inl rfl
    · rcases magnitude_le_largestFinite hv with rfl | hhi
      · exact .inl rfl
      · exact .inr ⟨hlo, hhi⟩

end Sys2Proof.Machine
end

section
/-! SUPPORT. ENC.H by ranges of the operand (43_encode.md R141): the ranges of the biased exponent `E - 112` of a binary32 normal in
binary16 are the ranges of the magnitude bits `E * 2^23 + F`, and the common factors of the roundings cancel. -/

namespace Sys2Proof.Machine

/-! ### Rounding -/

/-- RNE reads the rational, not the numbers that hold it (R13). -/
theorem rne_mul_mul_right (num den : Nat) {k : Nat} (h : 0 < k) : rne (num * k) (den * k) = rne num den := by
  have hlt (x y : Nat) : 2 * (x * k) < y * k ↔ 2 * x < y := by
    rw [← Nat.mul_assoc]
    exact Nat.mul_lt_mul_right h
  have hgt (x y : Nat) : y * k < 2 * (x * k) ↔ y < 2 * x := by
    rw [← Nat.mul_assoc]
    exact Nat.mul_lt_mul_right h
  simp only [rne, Nat.mul_mod_mul_right, Nat.mul_div_mul_right _ _ h, hlt, hgt]

/-- An even number of units takes no part in rounding. -/
theorem rne_add_even_mul (k num : Nat) {den : Nat} (h : 0 < den) : rne (2 * k * den + num) den = 2 * k + rne num den := by
  have hdiv : (2 * k * den + num) / den = 2 * k + num / den := by
    rw [Nat.add_comm, Nat.add_mul_div_right _ _ h, Nat.add_comm]
  have hparity : (2 * k + num / den) % 2 = num / den % 2 := by omega
  rw [rne, rne, hdiv, hparity, Nat.mul_add_mod_self_right]
  split_ifs <;> rfl

/-- The carry into infinity: a fraction rounds up to a whole binade from half a unit below it on (R138). -/
theorem two_pow_ten_le_rne_iff {F : Nat} (h : F < 2 ^ 23) : 2 ^ 10 ≤ rne F (2 ^ 13) ↔ 0x7FF000 ≤ F := by
  rw [rne]
  split_ifs <;> omega

/-! ### Finite values of binary32 in binary16 -/

theorem signPattern_h (s : Bool) : signPattern .h s = s.toNat * 0x8000 := rfl

theorem infPattern_h (s : Bool) : infPattern .h s = s.toNat * 0x8000 + 0x7C00 := rfl

theorem nanPattern_h (s : Bool) : nanPattern .h s = s.toNat * 0x8000 + 0x7E00 := by
  cases s <;> rfl

/-- A subnormal of binary32 lies below `2^-126`, and is flushed (R136). -/
theorem packFinite_h_of_subnormal_s (s : Bool) {F : Nat} (h0 : F ≠ 0) (h : F < 2 ^ 23) :
    packFinite .h s F (Fmt.minSubnormalExp .s) = s.toNat * 0x8000 := by
  have hlog : Nat.log2 F < 23 := (Nat.log2_lt h0).2 h
  refine (packFinite_eq_signPattern_iff .h s (Nat.pos_of_ne_zero h0) _).2 ?_
  simp only [unbiasedExp, Fmt.minSubnormalExp, Fmt.bias, Fmt.fracBits]
  omega

/-- The exponent of a binary32 normal, biased for binary16: `127 - 15 = 112` less. -/
theorem unbiasedExp_normal_s (E : Nat) {F : Nat} (h : F < 2 ^ 23) :
    unbiasedExp (2 ^ 23 + F) ((E : ℤ) - 127 - 23) + Fmt.bias .h = (E : ℤ) - 112 := by
  rw [unbiasedExp, log2_two_pow_add h, Fmt.bias]
  push_cast
  ring

/-- R137: `v * 2^24` of a binary32 normal is `(2^23 + F) / 2^(126 - E)`. -/
theorem subnormalFraction_h_of_normal_s {E F : Nat} (hE : E ≤ 112) (h : F < 2 ^ 23) :
    subnormalFraction .h (2 ^ 23 + F) (113 - E) = rne (2 ^ 23 + F) (2 ^ (126 - E)) := by
  have hshift : 23 + (113 - E) = 126 - E + 10 := by omega
  rw [subnormalFraction, log2_two_pow_add h, hshift, pow_add 2 (126 - E)]
  exact rne_mul_mul_right _ _ (Nat.two_pow_pos _)

/-- R138: ten of the 23 fraction bits stay. -/
theorem normalFraction_h_of_normal_s {F : Nat} (h : F < 2 ^ 23) : normalFraction .h (2 ^ 23 + F) = rne F (2 ^ 13) := by
  rw [normalFraction, log2_two_pow_add h, Nat.add_sub_cancel_left]
  exact rne_mul_mul_right F (2 ^ 13) (Nat.two_pow_pos _)

/-- R138: rounding the rebiased magnitude is rounding its fraction, since the exponent field above it is an even number of units. -/
theorem rne_rebiased {E : Nat} (hE : 113 ≤ E) (F : Nat) :
    rne (E * 2 ^ 23 + F - 112 * 2 ^ 23) (2 ^ 13) = (E - 112) * 2 ^ 10 + rne F (2 ^ 13) := by
  have hmag : E * 2 ^ 23 + F - 112 * 2 ^ 23 = 2 * ((E - 112) * 2 ^ 9) * 2 ^ 13 + F := by omega
  rw [hmag, rne_add_even_mul _ _ (Nat.two_pow_pos _)]
  omega

theorem emaxField_h : Fmt.emaxField .h = 31 := rfl

section

variable {E F : Nat} (s : Bool) (h : F < 2 ^ 23)

include h

/-- From 65536 on the exponent alone overflows (R135). -/
theorem packFinite_h_of_large_s (lo : 143 ≤ E) :
    packFinite .h s (2 ^ 23 + F) ((E : ℤ) - 127 - 23) = s.toNat * 0x8000 + 0x7C00 := by
  have hexp := unbiasedExp_normal_s E h
  rw [packFinite_of_overflow (by rw [hexp, emaxField_h]; omega), infPattern_h]

/-- Below `2^-14` the value is flushed (R136) or a number of units of `2^-24` (R137). -/
theorem packFinite_h_of_small_s (hi : E ≤ 112) :
    packFinite .h s (2 ^ 23 + F) ((E : ℤ) - 127 - 23) =
      if E < 103 then s.toNat * 0x8000 else s.toNat * 0x8000 + rne (2 ^ 23 + F) (2 ^ (126 - E)) := by
  have hexp := unbiasedExp_normal_s E h
  have hshift : (1 - ((E : ℤ) - 112)).toNat = 113 - E := by omega
  have hflush : 10 < 113 - E ↔ E < 103 := by omega
  rw [packFinite_of_small (by omega), hexp, hshift, packSubnormal, subnormalFraction_h_of_normal_s hi h, signPattern_h]
  simp only [Fmt.fracBits, hflush]

/-- Between them the fraction is rounded, and may carry into infinity (R138). -/
theorem packFinite_h_of_middle_s (lo : 113 ≤ E) (hi : E < 143) :
    packFinite .h s (2 ^ 23 + F) ((E : ℤ) - 127 - 23) =
      if 0x477FF000 ≤ E * 2 ^ 23 + F then s.toNat * 0x8000 + 0x7C00
      else s.toNat * 0x8000 + rne (E * 2 ^ 23 + F - 112 * 2 ^ 23) (2 ^ 13) := by
  have hexp := unbiasedExp_normal_s E h
  have hbiased : ((E : ℤ) - 112).toNat = E - 112 := by omega
  have hle : rne F (2 ^ 13) ≤ 2 ^ 10 := by
    have hrne := rne_le F (2 ^ 13)
    omega
  have hcarry : 31 * 2 ^ 10 ≤ (E - 112) * 2 ^ 10 + rne F (2 ^ 13) ↔ 0x477FF000 ≤ E * 2 ^ 23 + F := by
    have htop := two_pow_ten_le_rne_iff h
    omega
  have hmax := emaxField_h
  rw [packFinite_of_normal (by omega) (by omega), hexp, hbiased, packNormal, normalFraction_h_of_normal_s h,
    rne_rebiased lo, signPattern_h, infPattern_h]
  simp only [hmax, Fmt.fracBits, hcarry]

/-- R141 on a normal of binary32: the ranges of the exponent are ranges of the magnitude. -/
theorem packFinite_h_of_normal_s (hi : E < 255) :
    packFinite .h s (2 ^ 23 + F) ((E : ℤ) - 127 - 23) = encHClosedForm s (E * 2 ^ 23 + F) := by
  rw [encHClosedForm, if_neg (by omega)]
  rcases le_or_gt 143 E with hlarge | hE
  · rw [packFinite_h_of_large_s s h hlarge, if_pos (by omega)]
  · rcases le_or_gt E 112 with hsmall | hmiddle
    · have hdiv : (E * 2 ^ 23 + F) / 2 ^ 23 = E := by omega
      have hmod : (E * 2 ^ 23 + F) % 2 ^ 23 = F := by omega
      have hflush : E * 2 ^ 23 + F < 0x33800000 ↔ E < 103 := by omega
      have hinf : ¬ 0x477FF000 ≤ E * 2 ^ 23 + F := by omega
      have hsubnormal : E * 2 ^ 23 + F < 0x38800000 := by omega
      rw [packFinite_h_of_small_s s h hsmall, if_neg hinf, hdiv, hmod]
      simp only [hsubnormal, if_true, hflush]
    · rw [packFinite_h_of_middle_s s h hmiddle hE]
      split_ifs <;> omega

end

/-! ### Every operand -/

/-- R141 on the fields of any binary32 pattern. -/
theorem encodeOut_h_eq_closedForm (x : Nat) :
    encodeOut .h x = encHClosedForm (fieldsOf .s x).sign (x % 2 ^ 31) := by
  have hF : (fieldsOf .s x).frac < 2 ^ 23 := fieldsOf_frac_lt .s x
  have hmag : x % 2 ^ 31 = (fieldsOf .s x).exp * 2 ^ 23 + (fieldsOf .s x).frac := (exp_mul_add_frac .s x).symm
  have hmax : Fmt.emaxField .s = 255 := rfl
  have hcases := decodeValue_cases .s x
  rw [hmax] at hcases
  rw [encodeOut, show Fmt.native .h = .s from rfl, hmag]
  rcases hcases with ⟨hE, h0, hd⟩ | ⟨hE, h0, hd⟩ | ⟨hE, h0, hd⟩ | ⟨hE, h0, hd⟩ | ⟨-, hi, hd⟩ <;> rw [hd, roundPack]
  · rw [infPattern_h, encHClosedForm, if_neg (by omega), if_pos (by omega)]
  · rw [nanPattern_h, encHClosedForm, if_pos (by omega)]
  · rw [signPattern_h, encHClosedForm, if_neg (by omega), if_neg (by omega), if_pos (by omega)]
  · rw [packFinite_h_of_subnormal_s _ h0 hF, encHClosedForm, if_neg (by omega), if_neg (by omega), if_pos (by omega)]
  · exact packFinite_h_of_normal_s _ hF hi

/-- Settles O32: the sign and the magnitude of the operand are bit 31 and the low 31 bits of the port. -/
theorem encHIsItsClosedForm : Obligations.EncHIsItsClosedForm := by
  intro s
  have hmag : s.a.toNat % 2 ^ 32 % 2 ^ 31 = s.a.toNat % 2 ^ 31 := Nat.mod_mod_of_dvd _ (pow_dvd_pow 2 (by decide))
  have hsign : (fieldsOf .s (s.a.toNat % 2 ^ 32)).sign = s.a.getLsbD 31 := by
    have hbit := fieldsOf_patternOperand_sign_eq_getLsbD .s s.a
    rw [patternOperand_eq_mod] at hbit
    exact hbit
  rw [exec_encH_of_operand rfl, encodeOut_h_eq_closedForm, hmag, hsign]

end Sys2Proof.Machine
end

section
/-! SUPPORT. The host's test for an inexact ENC.H (60_exceptions.md R162): DEC.H keeps the value of the encoded pattern, and off NaN a
binary32 pattern is told by its value. -/

namespace Sys2Proof.Machine

theorem same_symm {x y : Value} (h : x.same y) : y.same x := by
  rcases eq_or_fin_of_same h with rfl | ⟨s, M, E, N, F, rfl, rfl, hv⟩
  · exact h
  · exact ⟨rfl, hv.symm⟩

/-- R110 and R139: off NaN a pattern that decodes to the value `v` is the packing of `v`. -/
theorem eq_roundPack_of_same {f : Fmt} {p : Nat} {v : Value} (hp : p < 2 ^ f.width) (hnan : classOf f p ≠ .nan)
    (hv : v.wellFormed = true) (h : v.same (decodeValue f p)) : roundPack f v = p := by
  rw [roundPack_congr f hv (decodeValue_wellFormed f p) h, roundPack_decodeValue hnan, Nat.mod_eq_of_lt hp]

/-- R162 on patterns: decoding gives the operand back exactly when the encoded pattern has its value. -/
theorem decodeOut_eq_iff_same {f : Fmt} {p x : Nat} (hx : x < 2 ^ f.native.width) (hnan : classOf f.native x ≠ .nan) :
    decodeOut f p = x ↔ (decodeValue f p).same (decodeValue f.native x) := by
  constructor
  · rintro rfl
    exact same_symm (same_decodeValue_decodeOut f p)
  · exact eq_roundPack_of_same hx hnan (decodeValue_wellFormed f p)

/-- Settles O38: what DEC.H reads is the pattern ENC.H drove. -/
theorem hostComparisonDetectsInexactEncH : Obligations.HostComparisonDetectsInexactEncH := by
  intro s hnan
  refine ⟨_, _, exec_encH_of_operand rfl, exec_dec .h _, ?_⟩
  have hx : s.a.toNat % 2 ^ 32 < 2 ^ 32 := Nat.mod_lt _ (Nat.two_pow_pos _)
  have hpattern : encodeOut .h (s.a.toNat % 2 ^ 32) < 2 ^ Fmt.width .h := roundPack_lt _ _
  have hdecoded : decodeOut .h (encodeOut .h (s.a.toNat % 2 ^ 32)) < 2 ^ Fmt.width .s := roundPack_lt _ _
  simp only [patternOperand_eq_mod, toNat_ofNat_of_lt_width hpattern, Nat.mod_eq_of_lt hpattern,
    toNat_ofNat_of_lt_width hdecoded]
  exact decodeOut_eq_iff_same (f := .h) hx hnan

end Sys2Proof.Machine
end

section
/-! SUPPORT. Sequences of transactions (70_reset_and_hazards.md R181, R183): a transaction leaves its inputs and `Step(op, a)` on the
ports, and nothing of what stood there before. -/

namespace Sys2Proof.Machine

/-- `Step(op, a)` as the host reads it. -/
def stepSample (op : CmdWord) (a : Word) : Sample := { y := (topLevel op a).1, ill := (topLevel op a).2 }

/-- R21: all four ports after a transaction come of its inputs. -/
theorem transact_eq (op : CmdWord) (a : Word) (s : State) :
    transact op a s = { op := op, a := a, y := (stepSample op a).y, ill := (stepSample op a).ill } := by
  rw [transact, step_eq_topLevel]
  rfl

/-- Settles O39: each transaction of the list answers `Step` of its inputs from whatever ports the one before left. -/
theorem backToBackTransactionsDoNotInterfere : Obligations.BackToBackTransactionsDoNotInterfere := by
  intro ts
  induction ts with
  | nil =>
    intro s
    rfl
  | cons x rest ih =>
    intro s
    rw [transactAll, List.map_cons, ih, transact_eq]
    rfl

/-- Settles O40: neither output depends on the ports before. -/
theorem firstTransactionIsLikeAnyLater : Obligations.FirstTransactionIsLikeAnyLater := by
  intro ts op a
  rw [transact_eq, transact_eq op a State.reset]
  exact ⟨rfl, rfl⟩

/-! ### Illegal answers -/

/-- R67: `ill` is set by the reserved words. -/
theorem stepSample_ill (op : CmdWord) (a : Word) : (stepSample op a).ill = isReserved op := by
  rw [stepSample]
  cases h : decode op with
  | ok i => rw [topLevel_of_decode_ok h, isReserved_of_decode_ok h]
  | error e => rw [topLevel_of_decode_error h, isReserved_of_decode_error h]

theorem stepSample_of_reserved {op : CmdWord} (h : isReserved op = true) (a : Word) :
    stepSample op a = { y := 0#64, ill := true } := by
  obtain ⟨e, he⟩ := (isReserved_iff_exists_decode_eq_error op).1 h
  rw [stepSample, topLevel_of_decode_error he]

/-- R183 in terms of the answers. -/
theorem transactAll_answers (ts : List (CmdWord × Word)) (s : State) :
    (transactAll ts s).1 = ts.map fun x => stepSample x.1 x.2 :=
  backToBackTransactionsDoNotInterfere ts s

/-- Settles O41: every answer is `Step` of its own inputs, whose `ill` says that the word is reserved. -/
theorem illegalAnswersComeFromReservedWordsAlone : Obligations.IllegalAnswersComeFromReservedWordsAlone := by
  refine ⟨fun ts s => ?_, fun ts op a s hop => ?_⟩
  · rw [transactAll_answers, NoIllegal, List.forall_mem_map]
    simp only [stepSample_ill]
  · rw [transactAll_answers, transactAll_answers, List.map_cons, stepSample_of_reserved (eq_true_of_ne_false hop)]

end Sys2Proof.Machine
end

section
/-! SUPPORT. The host's view over time (10_state.md R33, 70_reset_and_hazards.md R182): what a sample answers, and that actions
elsewhere leave a port alone (60_exceptions.md R168). -/

namespace Sys2Proof.Machine

/-- R33: the settled outputs are `Step(op, a)` of the port's inputs. -/
theorem outputs_eq (p : Port) : p.outputs = stepSample p.io.op p.io.a := by
  rw [Port.outputs, Port.settle, transact_eq]

/-- R182: a settled port answers `Step(op, a)` of its inputs. -/
theorem sample_answer_of_settled {x : System} {k : Nat} {p : Port} (hp : x.ports[k]? = some p) (h : ReadyPort p) :
    (x.sample k).1 = some (stepSample p.io.op p.io.a) := by
  rw [sample_of_settled hp h, outputs_eq]

/-- Settles O45: one action at a time, the waits add up. -/
theorem instancesShareNothing : Obligations.InstancesShareNothing := by
  intro x k acts
  induction acts generalizing x with
  | nil =>
    intro _
    exact (map_wait_zero _).symm
  | cons act rest ih =>
    intro h
    obtain ⟨hact, hrest⟩ := List.forall_mem_cons.1 h
    rw [System.after, ih _ hrest, act_leaves_port x k act hact, Option.map_map, totalDuration]
    congr 1
    funext p
    exact wait_wait _ _ p

/-- Settles O42: the driven port only waits, for `T_PROP` at least. -/
theorem sampleAfterSettlingIsStep : Obligations.SampleAfterSettlingIsStep := by
  intro x k op a acts hk hleaves htime
  have hdriven : (x.act (.drive k op a)).2.ports[k]? = some (x.ports[k].drive op a) := by
    simp [System.act, hk]
  have hport : ((x.act (.drive k op a)).2.after acts).ports[k]? = some ((x.ports[k].drive op a).wait (totalDuration acts)) := by
    rw [instancesShareNothing _ k acts hleaves, hdriven]
    rfl
  obtain ⟨hop, ha⟩ := drive_inputs op a x.ports[k]
  have hready : ReadyPort ((x.ports[k].drive op a).wait (totalDuration acts)) := htime.trans (Nat.le_add_left _ _)
  rw [sample_answer_of_settled hport hready, wait_io, hop, ha]
  rfl

/-- Settles O43: every port at power-up holds the inputs of `State.reset`, and waits for `T_PROP`. -/
theorem powerUpOutputsFollowTheInputs : Obligations.PowerUpOutputsFollowTheInputs := by
  have hlength : System.powerUp.ports.length = Config.nInst := List.length_replicate
  refine ⟨hlength ▸ Nat.succ_pos _, fun k dt hk hdt => ?_⟩
  have hport : (System.powerUp.act (.wait dt)).2.ports[k]? = some (Port.wait dt { io := State.reset, heldFor := 0 }) := by
    rw [act_leaves_port _ k _ rfl, System.powerUp, List.getElem?_replicate_of_lt (hlength ▸ hk)]
    rfl
  exact sample_answer_of_settled hport (hdt.trans (Nat.le_add_left _ _))

/-- Settles O44: a port that is not settled answers the draw the counter numbers, and stays as it is. -/
theorem earlySampleIsAFreeDraw : Obligations.EarlySampleIsAFreeDraw := by
  intro x k p hp h
  have hearly : p.settled = false := decide_eq_false h.not_ge
  simp only [System.sample, hp, hearly, Bool.false_eq_true, if_false]
  rfl

/-! ### Reading settled outputs -/

/-- R182: settling writes the outputs alone. -/
theorem settle_inputs (p : Port) : p.settle.io.op = p.io.op ∧ p.settle.io.a = p.io.a :=
  transact_inputs _ _ _

/-- Settles O46: the port stays settled on the same inputs, so the second sample is `Step` of them again. -/
theorem readingSettledOutputsHasNoSideEffect : Obligations.ReadingSettledOutputsHasNoSideEffect := by
  intro x k p hp hready
  obtain ⟨hop, ha⟩ := settle_inputs p
  have hk : k < x.ports.length := (List.getElem?_eq_some_iff.1 hp).1
  have hafter : (x.sample k).2 = { x with ports := x.ports.set k p.settle } := by rw [sample_of_settled hp hready]
  have hport : (x.sample k).2.ports[k]? = some p.settle := by
    rw [hafter, List.getElem?_set_self hk]
  refine ⟨?again, ?draws, ⟨p.settle, hport, hop, ha, settle_heldFor p⟩, fun j hj => ?others⟩
  case again =>
    rw [sample_answer_of_settled hport hready, sample_answer_of_settled hp hready, hop, ha]
  case draws => rw [hafter]
  case others => rw [hafter, List.getElem?_set_ne hj.symm]

end Sys2Proof.Machine
end

section
/-! SUPPORT. The text of a command (30_encoding.md R70): a text cut at its blanks gives its parts back, and reading the hexadecimal
digits of a number gives the number. -/

namespace Sys2Proof.Machine

/-! ### The parts of a text -/

/-- A part ends at the first blank. -/
theorem words_append_blank {w : List Char} (h : ' ' ∉ w) (cs : List Char) : words (w ++ ' ' :: cs) = w :: words cs := by
  induction w with
  | nil => simp [words]
  | cons c w ih =>
    rw [List.cons_append, words, if_neg (List.ne_of_not_mem_cons h).symm, ih (List.not_mem_of_not_mem_cons h)]

/-- A text with no blank is one part. -/
theorem words_eq_singleton {c : Char} {w : List Char} (h : ' ' ∉ c :: w) : words (c :: w) = [c :: w] := by
  induction w generalizing c with
  | nil => rw [words, if_neg (List.ne_of_not_mem_cons h).symm, words]
  | cons d w ih => rw [words, if_neg (List.ne_of_not_mem_cons h).symm, ih (List.not_mem_of_not_mem_cons h)]

/-! ### Hexadecimal digits -/

theorem hexDigit_hexChar {n : Nat} (h : n < 16) : hexDigit (hexChar n) = some n := by
  decide +revert

theorem hexChar_ne_blank {n : Nat} (h : n < 16) : hexChar n ≠ ' ' := by
  decide +revert

theorem blank_not_mem_hexDigits (k n : Nat) : ' ' ∉ hexDigits k n := by
  induction k generalizing n with
  | zero => exact List.not_mem_nil
  | succ k ih =>
    rw [hexDigits, List.mem_append, List.mem_singleton]
    rintro (hmem | heq)
    · exact ih _ hmem
    · exact hexChar_ne_blank (Nat.mod_lt n (by decide)) heq.symm

/-- Reading one more digit at the end. -/
theorem readDigits_append_singleton {digit : Char → Option Nat} {base acc v m : Nat} {cs : List Char} {c : Char}
    (hcs : readDigits digit base acc cs = some v) (hc : digit c = some m) :
    readDigits digit base acc (cs ++ [c]) = some (v * base + m) := by
  induction cs generalizing acc with
  | nil =>
    obtain rfl : acc = v := by simpa [readDigits] using hcs
    simp [readDigits, hc]
  | cons d cs ih =>
    rw [readDigits] at hcs
    cases hd : digit d with
    | none => simp [hd] at hcs
    | some w =>
      rw [hd] at hcs
      rw [List.cons_append, readDigits, hd]
      exact ih hcs

/-- The `k` digits of a number read back as its low `4 * k` bits. -/
theorem readDigits_hexDigits (k n : Nat) : readDigits hexDigit 16 0 (hexDigits k n) = some (n % 16 ^ k) := by
  induction k generalizing n with
  | zero => simp [hexDigits, readDigits, Nat.mod_one]
  | succ k ih =>
    have hlast : hexDigit (hexChar (n % 16)) = some (n % 16) := hexDigit_hexChar (Nat.mod_lt n (by decide))
    rw [hexDigits, readDigits_append_singleton (ih _) hlast, pow_succ', Nat.mod_mul, Nat.mul_comm, Nat.add_comm]

theorem hexDigits_ne_nil (k n : Nat) : hexDigits (k + 1) n ≠ [] := by
  simp [hexDigits]

/-- R70: a word is written with 16 digits, which are its value. -/
theorem readLiteral_hexDigits (a : Word) : readLiteral ('0' :: 'x' :: hexDigits 16 a.toNat) = some a.toNat := by
  have ha : a.toNat < 16 ^ 16 := a.isLt
  have hdigits := readDigits_hexDigits 16 a.toNat
  rw [Nat.mod_eq_of_lt ha] at hdigits
  obtain ⟨c, cs, hcs⟩ := List.exists_cons_of_ne_nil (hexDigits_ne_nil 15 a.toNat)
  rw [hcs] at hdigits ⊢
  exact hdigits

/-- A literal is no host variable. -/
theorem readOperand_hexDigits (a : Word) :
    readOperand ('0' :: 'x' :: hexDigits 16 a.toNat) = some (.lit a.toNat) := by
  rw [readOperand, readLiteral_hexDigits]
  rfl

/-! ### Commands -/

theorem instrOfMnemonic_mnemonicOf (i : Instr) : instrOfMnemonic (mnemonicOf i) = some i := by
  cases i <;> decide

theorem blank_not_mem_mnemonicOf (i : Instr) : ' ' ∉ mnemonicOf i := by
  cases i <;> decide

theorem words_showCommand (i : Instr) (a : Word) :
    words (showCommand i a) = [mnemonicOf i, '0' :: 'x' :: hexDigits 16 a.toNat] := by
  have htext : showCommand i a = mnemonicOf i ++ ' ' :: '0' :: 'x' :: hexDigits 16 a.toNat := by
    simp [showCommand]
  have hoperand : ' ' ∉ '0' :: 'x' :: hexDigits 16 a.toNat := by
    simpa using blank_not_mem_hexDigits 16 a.toNat
  rw [htext, words_append_blank (blank_not_mem_mnemonicOf i), words_eq_singleton hoperand]

/-- The text of a command is read as the plain line it stands for. -/
theorem readItem_showCommand (i : Instr) (a : Word) :
    readItem (showCommand i a) = .ok (.line ⟨none, .command i, .lit a.toNat⟩) := by
  rw [readItem, words_showCommand]
  simp [readBody, instrOfMnemonic_mnemonicOf, readOperand_hexDigits]

/-- Settles O47: the line read has the command's word and a literal that fits 64 bits. -/
theorem assemblerReadsWhatIsWritten : Obligations.AssemblerReadsWhatIsWritten := by
  intro vars i a
  rw [assemble, readItem_showCommand]
  simp [ScriptLine.encoding, ScriptOp.word]

/-- Settles O48: the value of a literal is tested against `2^64`. -/
theorem literalsAreZeroExtendedOrRejected : Obligations.LiteralsAreZeroExtendedOrRejected := by
  intro vars dest op n
  constructor
  · intro h
    rw [ScriptLine.encoding, ScriptOperand.value, if_neg h.not_gt]
  · intro h
    refine ⟨BitVec.ofNat 64 n, ?_, ?_⟩
    · rw [ScriptLine.encoding, ScriptOperand.value, if_pos h]
    · rw [BitVec.toNat_ofNat, Nat.mod_eq_of_lt h]

end Sys2Proof.Machine
end

section
/-! SUPPORT. The pseudo-commands (30_encoding.md R71): each line of an expansion is one command on the ports as the host drives them. -/

namespace Sys2Proof.Machine

/-! ### One line -/

/-- R70: a transaction on a command's word is the command on the driven ports. -/
theorem transact_encode {i : Instr} {a : Word} {s t : State} (ht : exec i { s with op := encode i, a := a } = .next t) :
    transact (encode i) a s = t := by
  have hdecode : decode ({ s with op := encode i, a := a } : State).op = .ok i := decode_encode i
  rw [transact, step_eq_exec hdecode, ht]

/-- One line of an expansion: its result is the newest host variable. -/
theorem runScript_command {k : Nat} {i : Instr} {x : ScriptOperand} {vars : HostVars} {a : Word} {s t : State}
    (hx : x.value vars = .ok a) (ht : exec i { s with op := encode i, a := a } = .next t) (rest : List ScriptLine) :
    runScript (⟨some k, .command i, x⟩ :: rest) vars s = runScript rest ((k, t.y) :: vars) t := by
  have hline := runScript_cons_of_value (l := ⟨some k, .command i, x⟩) (rest := rest) (s := s) hx
  rw [ScriptOp.word, transact_encode ht] at hline
  exact hline

/-! ### The expansions -/

section

variable {dest : Option Nat} {fresh : Nat} {x : ScriptOperand} {a : Word} {vars : HostVars} {s t u v : State}

/-- A name that stands for one command. -/
theorem runItem_single {q : Pseudo} {i : Instr} (hq : ∀ d y, q.expand d y = [⟨some d, .command i, y⟩])
    (hx : x.value vars = .ok a) (ht : exec i { s with op := encode i, a := a } = .next t) :
    runItem fresh vars s (.pseudo dest q x) = .ok ((dest.getD fresh, t.y) :: vars, t) := by
  rw [runItem_pseudo_of_value hx, hq, runScript_command (value_lit_toNat vars a) ht, runScript_nil]

/-- `RT.f` encodes what it decoded. -/
theorem runItem_roundTrip {f : Fmt} (hx : x.value vars = .ok a)
    (ht : exec (Instr.of .dec f) { s with op := encode (Instr.of .dec f), a := a } = .next t)
    (hu : exec (Instr.of .enc f) { t with op := encode (Instr.of .enc f), a := t.y } = .next u) :
    runItem fresh vars s (.pseudo dest (.roundTrip f) x) =
      .ok ((dest.getD fresh + 1, u.y) :: (dest.getD fresh, t.y) :: vars, u) := by
  rw [runItem_pseudo_of_value hx, Pseudo.expand, runScript_command (value_lit_toNat vars a) ht,
    runScript_command (value_var_newest _ _ _) hu, runScript_nil]

/-- `FIELDS.f` extracts three times from the operand it read once. -/
theorem runItem_fields {f : Fmt} (hx : x.value vars = .ok a)
    (ht : exec (Instr.of .xsgn f) { s with op := encode (Instr.of .xsgn f), a := a } = .next t)
    (hu : exec (Instr.of .xexp f) { t with op := encode (Instr.of .xexp f), a := a } = .next u)
    (hv : exec (Instr.of .xfrc f) { u with op := encode (Instr.of .xfrc f), a := a } = .next v) :
    runItem fresh vars s (.pseudo dest (.fields f) x) =
      .ok ((dest.getD fresh + 2, v.y) :: (dest.getD fresh + 1, u.y) :: (dest.getD fresh, t.y) :: vars, v) := by
  rw [runItem_pseudo_of_value hx, Pseudo.expand, runScript_command (value_lit_toNat _ a) ht,
    runScript_command (value_lit_toNat _ a) hu, runScript_command (value_lit_toNat _ a) hv, runScript_nil]

end

/-! ### Their results -/

/-- R151 for the two commands in a row. -/
theorem encodeDecoded_y_by_canonical (f : Fmt) (s : State) :
    (canonicalPattern f (s.a.toNat % 2 ^ f.width) = true → (encodeDecoded f s).y.toNat = s.a.toNat % 2 ^ f.width) ∧
    (canonicalPattern f (s.a.toNat % 2 ^ f.width) = false →
      (encodeDecoded f s).y.toNat = nanPattern f (s.a.getLsbD (f.width - 1))) := by
  obtain ⟨t, u, ht, hu, hy⟩ := encodeAfterDecodeIsTheIdentity f s
  rw [exec_dec_eq_decodeCommand] at ht
  injection ht with ht
  rw [← ht, exec_enc_after_dec] at hu
  injection hu with hu
  rw [hu]
  exact hy

/-- Settles O49: the lines of an expansion are the commands of the statement; ENC of DEC's result does not depend on the word on `op`
before it (R64), so it is R151's. -/
theorem pseudoCommandsRunTheirExpansions : Obligations.PseudoCommandsRunTheirExpansions := by
  intro dest fresh x a vars s hx
  refine ⟨fun qi hqi => ?single, fun f => ?roundTrip, fun f => ?fields⟩
  case single =>
    have hexpand (d : Nat) (y : ScriptOperand) : qi.1.expand d y = [⟨some d, .command qi.2, y⟩] := by
      fin_cases hqi <;> rfl
    exact ⟨_, exec_eq_answer _ _, runItem_single hexpand hx (exec_eq_answer _ _)⟩
  case roundTrip =>
    have ht := exec_dec_eq_decodeCommand f { s with op := encode (Instr.of .dec f), a := a }
    have hu := exec_enc_eq_encodeCommand f
    exact ⟨_, _, ht, hu _, runItem_roundTrip hx ht (hu _), encodeDecoded_y_by_canonical f { s with a := a }⟩
  case fields =>
    rw [← patternOperand_eq_mod]
    exact ⟨_, runItem_fields hx (exec_xsgn f _) (exec_xexp f _) (exec_xfrc f _), rfl, rfl⟩

end Sys2Proof.Machine
end
